-- ==== Sys2Proof/Word.lean ====
section
/-! DEFINITION. Words, bytes, pixels and the small named alternatives that the whole model uses. -/

namespace Sys2Proof

/-- An 8-bit byte or channel (00_scope.md R9). -/
abbrev Byte := BitVec 8

/-- A 32-bit CSR or command word (10_state.md R22, 30_encoding.md R76). -/
abbrev Word := BitVec 32

/-- A colour triple, in on-disk order: blue, green, red (00_scope.md R19). -/
structure Pixel where
  b : Byte
  g : Byte
  r : Byte
deriving DecidableEq, Repr, Inhabited

/-- The three rounding modes of CTRL.RND (10_state.md R25). The pattern 0b11 is not a mode. -/
inductive RoundMode where
  | halfUp
  | trunc
  | halfEven
deriving DecidableEq, Repr

/-- The two byte memories (20_memory.md R53). The CSR space holds registers and is no memory. -/
inductive Space where
  | input
  | output
deriving DecidableEq, Repr

end Sys2Proof
end

