-- ==== Sys2Proof/Config.lean ====
section
/-! DEFINITION. What an implementation fixes (the three capacities, the platform's placement) and the
free values: constants without a body that stand for what the spec leaves unspecified. -/

namespace Sys2Proof

/-- The implementation parameters (00_scope.md R7). A state carries them, and no step changes them, so a
statement about every state holds for every implementation. -/
structure Config.Params where
  inCap : Nat
  outCap : Nat
  pixCap : Nat
deriving DecidableEq, Repr

/-- DESIGN CHOICE (log entry 1): the capacities `State.reset` carries, those of 95_test_vectors.md. -/
def Config.vectorParams : Config.Params := { inCap := 4096, outCap := 4096, pixCap := 1024 }

/-- The unspecified byte at an address of a memory that nothing has written since hardware reset number
`epoch`: a fixed but unknown value per byte and per reset (10_state.md R51, R52; log entry 2). -/
opaque Config.powerOnByte (space : Space) (epoch address : Nat) : Byte

/-- The free choice number `draw` of a race: does the new value win (20_memory.md R71, R72; log entries 8, 9)? -/
opaque Config.raceTakesNew (draw : Nat) : Bool

/-- The byte that an ENCODE abandoned by a soft reset leaves (70_reset_and_hazards.md R171; log entry 10). -/
opaque Config.abandonedByte (draw address : Nat) : Byte

/-- The unspecified contents of a cell of PIX that holds no pixel of a frame (10_state.md R42, R51; log entry 4). -/
opaque Config.unspecifiedPixel (cell : Nat) : Pixel

/-- Platform placement of the CSR space (20_memory.md R53; log entry 16). -/
opaque Config.csrBase : Nat

/-- Platform placement of the IN space (20_memory.md R53; log entry 16). -/
opaque Config.inBase : Nat

/-- Platform placement of the OUT space (20_memory.md R53; log entry 16). -/
opaque Config.outBase : Nat

/-- The interrupt-controller input that IRQ reaches (60_exceptions.md R156; log entry 16). -/
opaque Config.irqLine : Nat

end Sys2Proof
end

