-- ==== Sys2Proof/Syntax.lean ====
section
/-! DEFINITION. The commands of the engine: one constructor per row of spec/opcode_table.json. -/

namespace Sys2Proof

/-- The six commands (30_encoding.md R78). A command has no operand fields and no immediates (R77). -/
inductive Instr where
  | decode
  | encode
  | grayscale
  | reflect
  | blur
  | sepia
deriving DecidableEq, Repr

end Sys2Proof
end

