-- ==== Sys2Proof/WellFormed.lean ====
section
/-! DEFINITION. Which instructions and which implementation parameters are well formed. -/

namespace Sys2Proof

/-- A command has no operand field and no immediate (30_encoding.md R77), so there is nothing to check: every
command is well formed. Written per constructor, so that a command with an operand would have to say its check. -/
def Instr.wf : Instr → Bool
  | .decode => true
  | .encode => true
  | .grayscale => true
  | .reflect => true
  | .blur => true
  | .sepia => true

/-- The constraints on the implementation parameters (00_scope.md R7). -/
def Config.Params.wf (p : Config.Params) : Bool :=
  decide (54 ≤ p.inCap) && decide (p.inCap ≤ 2 ^ 32 - 1) &&
  decide (54 ≤ p.outCap) && decide (p.outCap ≤ 2 ^ 32 - 1) &&
  decide (1 ≤ p.pixCap) && decide (p.pixCap ≤ 2 ^ 28)

end Sys2Proof
end

