-- ==== Sys2Proof/Decode.lean ====
section
/-! DEFINITION. The command decoder, total on any word and on any bytes, and the encoder after it. -/

namespace Sys2Proof

/-- Why a word or a byte string is no command. A rejected word is an illegal command (30_encoding.md R80). -/
inductive Rejection where
  /-- The OPCODE is outside the table (R80, first case). -/
  | unknownOpcode (w : Word)
  /-- A valid OPCODE with RSVD non-zero (R80, second case). -/
  | reservedBits (w : Word)
  /-- Fewer than the four bytes of one CSR write (R76). -/
  | short (bytes : List Byte)
deriving DecidableEq, Repr

/-- What a decoder answers for one word. -/
inductive Decoded where
  | command (i : Instr)
  | rejected (why : Rejection)
deriving DecidableEq, Repr

/-- The opcode map (30_encoding.md R78): the OPCODE of every command. -/
def opcodeMap : List (Instr × Byte) :=
  [(.decode, 0x64#8), (.encode, 0x65#8), (.grayscale, 0x67#8), (.reflect, 0x72#8), (.blur, 0x62#8), (.sepia, 0x73#8)]

/-- The OPCODE field of a command word, bits 7:0 (30_encoding.md R76). -/
def opcodeOf (w : Word) : Byte := w.extractLsb' 0 8

/-- The RSVD field of a command word, bits 31:8 (30_encoding.md R76). -/
def rsvdOf (w : Word) : BitVec 24 := w.extractLsb' 8 24

/-- The command of an OPCODE, if the map has one. -/
def commandOf (op : Byte) : Option Instr := (opcodeMap.find? fun row => row.2 == op).map Prod.fst

/-- Decoding of one command word (30_encoding.md R79, R80): the OPCODE and the zero RSVD field both take part
in the match. -/
def decodeWord (w : Word) : Decoded :=
  match commandOf (opcodeOf w) with
  | none => .rejected (.unknownOpcode w)
  | some i => if rsvdOf w = 0#24 then .command i else .rejected (.reservedBits w)

/-- Decoding of a byte string: the first command and the rest. Every command is one 32-bit CSR write, least
significant byte first (30_encoding.md R76, 20_memory.md R58). -/
def decodeBytes : List Byte → Decoded × List Byte
  | b0 :: b1 :: b2 :: b3 :: rest => (decodeWord (b3 ++ b2 ++ b1 ++ b0), rest)
  | bytes => (.rejected (.short bytes), bytes)

/-- The OPCODE of a command (30_encoding.md R78). -/
def opcode : Instr → Byte
  | .decode => 0x64#8
  | .encode => 0x65#8
  | .grayscale => 0x67#8
  | .reflect => 0x72#8
  | .blur => 0x62#8
  | .sepia => 0x73#8

/-- The full word of a command: OPCODE in bits 7:0, RSVD zero (30_encoding.md R76, R78). -/
def encode (i : Instr) : Word := 0#24 ++ opcode i

/-- The four bytes of a command's word, lowest address first (20_memory.md R58). -/
def encodeBytes (i : Instr) : List Byte :=
  let w := encode i
  [w.extractLsb' 0 8, w.extractLsb' 8 8, w.extractLsb' 16 8, w.extractLsb' 24 8]

/-- The word of a table row: the bits above `nbits` are 0. -/
def tableWord (nbits w : Nat) : Word := BitVec.ofNat 32 (w % 2 ^ nbits)

/-- The command the decoder reads from the table's word `w` of `nbits` bits. A value that does not fit one
32-bit word is no command (30_encoding.md R76). -/
def decodeTableWord (nbits w : Nat) : Option Instr :=
  if w % 2 ^ nbits < 2 ^ 32 then
    match decodeWord (tableWord nbits w) with
    | .command i => some i
    | .rejected _ => none
  else none

/-- The mnemonic of a command (30_encoding.md R78). -/
def mnemonic : Instr → String
  | .decode => "DECODE"
  | .encode => "ENCODE"
  | .grayscale => "GRAYSCALE"
  | .reflect => "REFLECT"
  | .blur => "BLUR"
  | .sepia => "SEPIA"

/-- The flag letter of a command, whose ASCII code is its OPCODE (30_encoding.md R78). -/
def flag : Instr → Char
  | .decode => 'd'
  | .encode => 'e'
  | .grayscale => 'g'
  | .reflect => 'r'
  | .blur => 'b'
  | .sepia => 's'

/-- The command that an assembler operand names, by mnemonic or by flag letter (30_encoding.md R87). -/
def commandNamed (name : String) : Option Instr :=
  [Instr.decode, .encode, .grayscale, .reflect, .blur, .sepia].find? fun i =>
    name == mnemonic i || name == (flag i).toString

end Sys2Proof
end

