-- ==== Sys2Proof/Machine/State.lean ====
section
/-! DEFINITION. The state of the machine, all of it plain data, and its value after a hardware reset. -/

namespace Sys2Proof.Machine

/-- No condition of this engine stops or hangs the machine: every error is a failed completion, which is a next
state, and no host access raises an error (93_implementation_defined.md part 1, `stuck`; 60_exceptions.md R151;
20_memory.md R61, R62). So no fault exists, and nothing raises one. -/
inductive Fault where
deriving DecidableEq, Repr

/-- The reasons for which the model has no meaning. -/
inductive Refusal where
  /-- Raised only by an arm of `exec` whose command has no meaning yet; safe. No arm raises it now. -/
  | notModelled (mnemonic : String)
deriving DecidableEq, Repr

/-- The error codes of STATUS.ERR_CODE (60_exceptions.md R146). Every other value is never produced. -/
inductive ErrCode where
  | none
  | formatError
  | truncatedInput
  | resourceExhausted
  | ioError
  | illegalCommand
  | noFrame
deriving DecidableEq, Repr

/-- The latched command PEND (10_state.md R44). -/
structure Pend where
  word : Word
  rnd : RoundMode
  inLen : Word
deriving DecidableEq, Repr

/-- The bytes of a memory that have been written since the last hardware reset, as (address, byte) pairs with
strictly rising addresses. An unlisted address holds its unspecified reset value (log entry 2), so an entry never
repeats what an unlisted address would read as. -/
abbrev Memory := List Host.Cell

/-- The widths of a host access to IN or OUT: 1, 2 or 4 bytes (20_memory.md R59). -/
inductive Size where
  | one
  | two
  | four
deriving DecidableEq, Repr

/-- One host access (10_state.md R47, 20_memory.md R59 to R62). A CSR access carries its width in bytes, since
any width may be tried and only 4 is performed (R61). -/
inductive HostAccess where
  | csrRead (bytes : Nat) (offset : BitVec 12)
  | csrWrite (bytes : Nat) (offset : BitVec 12) (v : Word)
  | inRead (n : Size) (a : Nat)
  | inWrite (n : Size) (a : Nat) (v : Word)
  | outRead (n : Size) (a : Nat)
  | outWrite (n : Size) (a : Nat) (v : Word)
deriving DecidableEq, Repr

/-- One turn of an agent (10_state.md R47): a host access, a turn of the engine, or the reset input. -/
inductive Turn where
  | host (x : HostAccess)
  | engine
  | hardwareReset
deriving DecidableEq, Repr

/-- The whole state. The fields up to `outMem` are the spec's (10_state.md sections 2 to 4, 20_memory.md R53);
the last five are the model's own (log entries 2, 5, 7, 8, 17). -/
structure State where
  params : Config.Params
  rnd : RoundMode
  irqEn : Bool
  busy : Bool
  done : Bool
  error : Bool
  valid : Bool
  ovr : Bool
  lastOp : Byte
  errCode : ErrCode
  inLen : Word
  outLen : Word
  width : Word
  height : Word
  padding : BitVec 2
  errInfo : Word
  hdr : Vector Byte 54
  pix : List Pixel
  pend : Pend
  inMem : Memory
  outMem : Memory
  raced : Memory
  epoch : Nat
  draws : Nat
  schedule : List Turn
  reads : List Word
deriving DecidableEq, Repr

/-- The machine right after the first hardware reset (10_state.md R51). The parameters, PEND and the model's own
fields are log entries 1, 3 and 17. -/
def State.reset : State where
  params := Config.vectorParams
  rnd := .halfUp
  irqEn := false
  busy := false
  done := false
  error := false
  valid := false
  ovr := false
  lastOp := 0#8
  errCode := .none
  inLen := 0#32
  outLen := 0#32
  width := 0#32
  height := 0#32
  padding := 0#2
  errInfo := 0#32
  hdr := Vector.replicate 54 0#8
  pix := []
  pend := { word := 0#32, rnd := .halfUp, inLen := 0#32 }
  inMem := []
  outMem := []
  raced := []
  epoch := 0
  draws := 0
  schedule := []
  reads := []

end Sys2Proof.Machine
end

