-- ==== Sys2Proof/Machine/Operands.lean ====
section
/-! DEFINITION. The forms in which commands and host accesses name data: header fields, row geometry, the register
map, access widths. -/

namespace Sys2Proof.Machine

/-- `LE16(A, o)` (00_scope.md R14). -/
def le16 (A : Nat → Byte) (o : Nat) : Nat := (A o).toNat + 2 ^ 8 * (A (o + 1)).toNat

/-- `LE32(A, o)` (00_scope.md R14). -/
def le32 (A : Nat → Byte) (o : Nat) : Nat :=
  (A o).toNat + 2 ^ 8 * (A (o + 1)).toNat + 2 ^ 16 * (A (o + 2)).toNat + 2 ^ 24 * (A (o + 3)).toNat

/-- `sLE32(A, o)`, the two's-complement value (00_scope.md R14). -/
def sle32 (A : Nat → Byte) (o : Nat) : Int :=
  if 2 ^ 31 ≤ le32 A o then (le32 A o : Int) - 2 ^ 32 else (le32 A o : Int)

/-- `PAD(w)`, the padding bytes after a row of w pixels (00_scope.md R18). -/
def pad (w : Nat) : Nat := (4 - 3 * w % 4) % 4

/-- `STRIDE(w)`, the on-disk length of a row (00_scope.md R18). -/
def stride (w : Nat) : Nat := 3 * w + pad w

/-- The little-endian value of the bytes `f 0` to `f (n - 1)`: `MemRead` (00_scope.md R13, 20_memory.md R59). -/
def littleEndian (f : Nat → Byte) : Nat → Nat
  | 0 => 0
  | n + 1 => littleEndian f n + 2 ^ (8 * n) * (f n).toNat

/-- Byte k of a value, `v[8k+7:8k]` (00_scope.md R13). -/
def byteOf (v : Word) (k : Nat) : Byte := v.extractLsb' (8 * k) 8

/-- The number of bytes of a host access to IN or OUT (20_memory.md R59). -/
def Size.bytes : Size → Nat
  | .one => 1
  | .two => 2
  | .four => 4

/-- The registers of the CSR map (10_state.md R22). -/
inductive Csr where
  | id
  | ctrl
  | status
  | cmd
  | inLen
  | outLen
  | width
  | height
  | padding
  | errInfo
  | inCap
  | outCap
  | pixCap
  | hdr (k : Fin 14)
deriving DecidableEq, Repr

/-- The offset of a register (10_state.md R22). -/
def csrOffset : Csr → BitVec 12
  | .id => 0x000#12
  | .ctrl => 0x004#12
  | .status => 0x008#12
  | .cmd => 0x00C#12
  | .inLen => 0x010#12
  | .outLen => 0x014#12
  | .width => 0x018#12
  | .height => 0x01C#12
  | .padding => 0x020#12
  | .errInfo => 0x024#12
  | .inCap => 0x028#12
  | .outCap => 0x02C#12
  | .pixCap => 0x030#12
  | .hdr k => BitVec.ofNat 12 (0x100 + 4 * k.val)

/-- All registers of the map (10_state.md R22). -/
def csrMap : List Csr :=
  [.id, .ctrl, .status, .cmd, .inLen, .outLen, .width, .height, .padding, .errInfo, .inCap, .outCap, .pixCap,
   .hdr 0, .hdr 1, .hdr 2, .hdr 3, .hdr 4, .hdr 5, .hdr 6, .hdr 7, .hdr 8, .hdr 9, .hdr 10, .hdr 11, .hdr 12, .hdr 13]

/-- The register at an offset; none at a reserved offset or at one that is not a multiple of 4 (10_state.md R22, R40). -/
def csrAt (offset : BitVec 12) : Option Csr := csrMap.find? fun c => csrOffset c == offset

/-- The register that a CSR access reaches: only 32-bit accesses at multiples of 4 are admitted (20_memory.md R61). -/
def csrAccessed (bytes : Nat) (offset : BitVec 12) : Option Csr :=
  if bytes = 4 ∧ offset.toNat % 4 = 0 then csrAt offset else none

end Sys2Proof.Machine
end

