-- ==== Sys2Proof/Machine/Flags.lean ====
section
/-! DEFINITION. The flags and fields of CTRL and STATUS, how they read as words, and the interrupt level. -/

namespace Sys2Proof.Machine

/-- The number of an error code (60_exceptions.md R146). -/
def errNumber : ErrCode → Byte
  | .none => 0#8
  | .formatError => 1#8
  | .truncatedInput => 2#8
  | .resourceExhausted => 3#8
  | .ioError => 4#8
  | .illegalCommand => 5#8
  | .noFrame => 6#8

/-- The CTRL.RND bits of a rounding mode (10_state.md R25). -/
def rndBits : RoundMode → BitVec 2
  | .halfUp => 0b00#2
  | .trunc => 0b01#2
  | .halfEven => 0b10#2

/-- The mode that a CTRL write leaves in RND: bits 0b11 are refused and the old mode stays (10_state.md R25). -/
def rndWritten (bits : BitVec 2) (old : RoundMode) : RoundMode :=
  if bits = 0b00#2 then .halfUp else if bits = 0b01#2 then .trunc else if bits = 0b10#2 then .halfEven else old

/-- What a read of CTRL returns: bit 31 and bits 30:3 are 0, then IRQ_EN and RND (10_state.md R24). -/
def ctrlWord (s : State) : Word := 0#29 ++ BitVec.ofBool s.irqEn ++ rndBits s.rnd

/-- What a read of STATUS returns (10_state.md R29). -/
def statusWord (s : State) : Word :=
  0#8 ++ errNumber s.errCode ++ s.lastOp ++ 0#3 ++ BitVec.ofBool s.ovr ++ BitVec.ofBool s.valid ++
    BitVec.ofBool s.error ++ BitVec.ofBool s.done ++ BitVec.ofBool s.busy

/-- The write-1-to-clear bits of STATUS (10_state.md R30): DONE, ERROR and OVR fall where v has a 1 in bit 1, 2
or 4; nothing else changes. This is also the host's acknowledgement of a completion, the counterpart of a return
from a trap (60_exceptions.md R158). -/
def State.ackStatus (v : Word) (s : State) : State :=
  { s with
    done := s.done && !v.getLsbD 1
    error := s.error && !v.getLsbD 2
    ovr := s.ovr && !v.getLsbD 4 }

/-- The interrupt output, a level and not state (10_state.md R50, 60_exceptions.md R154). -/
def State.irq (s : State) : Bool := s.irqEn && (s.done || s.error)

/-- The level the engine drives on a line of the platform's interrupt controller (60_exceptions.md R156). -/
def State.irqOnLine (s : State) (line : Nat) : Bool := decide (line = Config.irqLine) && s.irq

end Sys2Proof.Machine
end

