-- ==== Sys2Proof/Machine/Ops.lean ====
section
/-! DEFINITION. The named operations over the memories, the frame store and the registers; acceptance, completion
and failure of a command; the two resets. -/

namespace Sys2Proof.Machine

/-! ### Memories as lists of written bytes -/

/-- The byte written at an address since the last hardware reset, if any. -/
def Memory.byteAt? : Memory → Nat → Option Byte
  | [], _ => none
  | (x, b) :: rest, a => if a = x then some b else Memory.byteAt? rest a

/-- Writing one byte, keeping the addresses strictly rising. -/
def Memory.put : Memory → Nat → Byte → Memory
  | [], a, b => [(a, b)]
  | (x, c) :: rest, a, b =>
    if a < x then (a, b) :: (x, c) :: rest
    else if a = x then (a, b) :: rest
    else (x, c) :: Memory.put rest a b

/-- Writing the bytes `f 0` to `f (n - 1)` at addresses 0 to n - 1, in rising order. -/
def Memory.fill (m : Memory) (f : Nat → Byte) : Nat → Memory
  | 0 => m
  | n + 1 => Memory.put (Memory.fill m f n) n (f n)

/-- The addresses rise strictly from `low` on. -/
def Memory.risingFrom : Nat → Memory → Bool
  | _, [] => true
  | low, (a, _) :: rest => decide (low ≤ a) && Memory.risingFrom (a + 1) rest

/-- The canonical form: addresses strictly rising and below the memory's capacity. -/
def Memory.wf (cap : Nat) (m : Memory) : Bool :=
  Memory.risingFrom 0 m && m.all fun cell => decide (cell.1 < cap)

/-- A byte of IN_MEM as the host reads it. At or above the capacity it reads as 0 (20_memory.md R62); a byte
nothing has written since the last hardware reset is a fixed but unknown value (10_state.md R52). -/
def State.inByte (s : State) (a : Nat) : Byte :=
  if a < s.params.inCap then (Memory.byteAt? s.inMem a).getD (Config.powerOnByte .input s.epoch a) else 0#8

/-- A byte of OUT_MEM, by the same rules (20_memory.md R62, 10_state.md R52). -/
def State.outByte (s : State) (a : Nat) : Byte :=
  if a < s.params.outCap then (Memory.byteAt? s.outMem a).getD (Config.powerOnByte .output s.epoch a) else 0#8

/-- A byte of IN_MEM as the DECODE in flight sees it: where the host has written the byte meanwhile, the value the
race left, else the byte itself (20_memory.md R71; log entry 8). -/
def State.decodeByte (s : State) (a : Nat) : Byte := (Memory.byteAt? s.raced a).getD (s.inByte a)

/-! ### The frame store -/

/-- Byte i of the stored header, HDR[i] (10_state.md R41); there is none at i >= 54. -/
def State.hdrByte (s : State) (i : Nat) : Byte := if h : i < 54 then s.hdr[i] else 0#8

/-- A cell of PIX. A cell beyond the stored frame holds an unspecified pixel (10_state.md R42; log entry 4). -/
def State.pixCell (s : State) (k : Nat) : Pixel := (s.pix[k]?).getD (Config.unspecifiedPixel k)

/-- `PIX[r][c]` (10_state.md R42). The cells hold the frame row after row, a placement that is not observable. -/
def State.pixel (s : State) (r c : Nat) : Pixel := s.pixCell (r * s.width.toNat + c)

/-- The cells of a frame of h rows by w columns whose pixel (r, c) is `f r c`. -/
def pixelGrid (h w : Nat) (f : Nat → Nat → Pixel) : List Pixel :=
  (List.range (h * w)).map fun k => f (k / w) (k % w)

/-- Replacing every pixel of the frame held. `f` is given the frame before the replacement, so no pixel is
computed from one already replaced (43_blur.md R132, 44_sepia.md R140). -/
def State.replacePixels (f : Nat → Nat → Pixel) (s : State) : State :=
  { s with pix := pixelGrid s.height.toNat s.width.toNat f }

/-- The stride of the frame held, 3 x WIDTH + PADDING (40_codec.md R108). -/
def State.rowBytes (s : State) : Nat := 3 * s.width.toNat + s.padding.toNat

/-- The length of the frame held as a byte string: `need` of ENCODE (40_codec.md R108, R109). -/
def State.frameBytes (s : State) : Nat := 54 + s.height.toNat * s.rowBytes

/-- Channel k of a pixel in on-disk order: 0 blue, 1 green, 2 red (30_encoding.md R85). -/
def pixelByte (p : Pixel) (k : Nat) : Byte := if k = 0 then p.b else if k = 1 then p.g else p.r

/-- Byte a of the frame held, as ENCODE writes it (30_encoding.md R82, R85; 40_codec.md R108): the header verbatim,
then each row's pixels in on-disk order and zero padding. -/
def State.frameByte (s : State) (a : Nat) : Byte :=
  if a < 54 then s.hdrByte a
  else
    let r := (a - 54) / s.rowBytes
    let j := (a - 54) % s.rowBytes
    if j < 3 * s.width.toNat then pixelByte (s.pixel r (j / 3)) (j % 3) else 0#8

/-! ### Acceptance, completion and failure of a command -/

/-- Acceptance of a command word (10_state.md R45). The values left by an earlier race are dropped (log entry 8). -/
def State.accept (w : Word) (s : State) : State :=
  { s with
    pend := { word := w, rnd := s.rnd, inLen := s.inLen }
    busy := true
    lastOp := opcodeOf w
    done := false
    error := false
    errCode := .none
    errInfo := 0#32
    raced := [] }

/-- A CMD write: accepted when BUSY = 0, else dropped with OVR set (10_state.md R45, R46). -/
def State.issue (w : Word) (s : State) : State := if s.busy then { s with ovr := true } else s.accept w

/-- Successful completion (60_exceptions.md R150). -/
def State.complete (s : State) : State := { s with busy := false, done := true, raced := [] }

/-- Failed completion, the counterpart of taking an exception (60_exceptions.md R151): `cmd` is the command that
raises (none for an illegal word), `e` the error and `info` the detail value. Every failed ENCODE sets OUT_LEN to 0, as
10_state.md R33, 40_codec.md R112 and 92_eei_decisions.md D21, D44 say; R151 names only IO_ERROR (log entry 11). -/
def State.raise (cmd : Option Instr) (e : ErrCode) (info : Nat) (s : State) : State :=
  { s with
    busy := false
    error := true
    errCode := e
    errInfo := BitVec.ofNat 32 info
    valid := if cmd = some .decode then false else s.valid
    outLen := if cmd = some .encode then 0#32 else s.outLen
    raced := [] }

/-- The check that every command but DECODE makes first: with no frame held it raises NO_FRAME with the OPCODE of
the latched word (60_exceptions.md R149). -/
def State.withFrame (cmd : Instr) (body : State → State) (s : State) : State :=
  if s.valid then body s else s.raise (some cmd) .noFrame (opcodeOf s.pend.word).toNat

/-! ### Resets -/

/-- OUT_MEM as a soft reset leaves it: an ENCODE in flight may leave any value in each byte of its output range;
every other byte keeps its value (70_reset_and_hazards.md R171; log entry 10). -/
def State.abandonedOut (s : State) : Memory :=
  if s.busy ∧ s.pend.word = encode .encode then
    Memory.fill s.outMem (Config.abandonedByte s.draws) (min s.frameBytes s.params.outCap)
  else s.outMem

/-- Soft reset (70_reset_and_hazards.md R170; 10_state.md R51): every register, HDR, PEND and PIX as after a
hardware reset; IN_MEM and OUT_MEM keep their contents but for an abandoned ENCODE's bytes. -/
def State.softReset (s : State) : State :=
  { State.reset with
    params := s.params
    inMem := s.inMem
    outMem := s.abandonedOut
    epoch := s.epoch
    draws := s.draws + 1
    schedule := s.schedule
    reads := s.reads }

/-- Hardware reset (70_reset_and_hazards.md R167; 10_state.md R51): every piece of state at its reset value, the
command in flight abandoned, both memories unspecified, drawn anew (R52). -/
def State.hardwareReset (s : State) : State :=
  { State.reset with
    params := s.params
    epoch := s.epoch + 1
    draws := s.draws
    schedule := s.schedule
    reads := s.reads }

/-! ### Loading a command from outside -/

/-- The state in which `w` has just been accepted and the engine moves next: acceptance of `w`, and a turn of the
engine before whatever else is planned (log entry 5). -/
def State.loadCommand (w : Word) (s : State) : State :=
  { s.accept w with schedule := if s.schedule = [] then [] else .engine :: s.schedule }

end Sys2Proof.Machine
end

