-- ==== Sys2Proof/Machine/Codec.lean ====
section
/-! DEFINITION. The frame parser and encoder: DECODE and ENCODE (40_codec.md). -/

namespace Sys2Proof.Machine

/-- The signed width field of the input header, `w` (40_codec.md R95). -/
def State.inWidth (s : State) : Int := sle32 s.decodeByte 18

/-- The signed height field of the input header, `ht` (40_codec.md R95). -/
def State.inHeight (s : State) : Int := sle32 s.decodeByte 22

/-- W of the input frame: `W <- w`, once w >= 0 is checked (40_codec.md R95). -/
def State.inW (s : State) : Nat := s.inWidth.toNat

/-- H of the input frame: `H <- abs(ht)`, exact (40_codec.md R95). -/
def State.inH (s : State) : Nat := s.inHeight.natAbs

/-- `need`, the bytes the input frame takes (40_codec.md R100). -/
def State.inNeed (s : State) : Nat := 54 + s.inH * stride s.inW

/-- The first check of DECODE that fails, with its detail value, in the order of 40_codec.md R95
(60_exceptions.md R153). -/
def decodeError (s : State) : Option (ErrCode × Nat) :=
  let len := s.pend.inLen.toNat
  let h := s.decodeByte
  if len < 54 then some (.truncatedInput, 54)
  else if le16 h 0 ≠ 0x4D42 then some (.formatError, 1)
  else if le32 h 10 ≠ 54 then some (.formatError, 2)
  else if le32 h 14 ≠ 40 then some (.formatError, 3)
  else if le16 h 28 ≠ 24 then some (.formatError, 4)
  else if le32 h 30 ≠ 0 then some (.formatError, 5)
  else if s.inWidth < 0 then some (.formatError, 6)
  else if s.params.pixCap < s.inW * s.inH then some (.resourceExhausted, min (s.inW * s.inH) 0xFFFFFFFF)
  else if len < s.inNeed then some (.truncatedInput, s.inNeed)
  else none

/-- Pixel (r, c) of the input frame: bytes `54 + r x STRIDE(W) + 3c + {0, 1, 2}` as (B, G, R) (40_codec.md R102). -/
def inputPixel (s : State) (r c : Nat) : Pixel :=
  let a := 54 + r * stride s.inW + 3 * c
  { b := s.decodeByte a, g := s.decodeByte (a + 1), r := s.decodeByte (a + 2) }

/-- The commit of a DECODE that passes every check (40_codec.md R102). -/
def commitFrame (s : State) : State :=
  { s with
    hdr := Vector.ofFn fun i => s.decodeByte i.val
    width := BitVec.ofNat 32 s.inW
    height := BitVec.ofNat 32 s.inH
    padding := BitVec.ofNat 2 (pad s.inW)
    pix := pixelGrid s.inH s.inW (inputPixel s)
    valid := true }

/-- DECODE (40_codec.md R95). Every check runs before any state is written. -/
def execDecode (s : State) : Host.Outcome State Fault Refusal :=
  .next (match decodeError s with
    | some (e, info) => s.raise (some .decode) e info
    | none => (commitFrame s).complete)

/-- The output of an ENCODE that fits: every byte of the frame, and OUT_LEN (40_codec.md R108, R109). -/
def storeFrame (s : State) : State :=
  { s with
    outMem := Memory.fill s.outMem s.frameByte s.frameBytes
    outLen := BitVec.ofNat 32 s.frameBytes }

/-- ENCODE with a frame held (40_codec.md R108 to R111). -/
def encodeFrame (s : State) : State :=
  if s.params.outCap < s.frameBytes then s.raise (some .encode) .ioError s.frameBytes else (storeFrame s).complete

/-- ENCODE (40_codec.md R107, R108). -/
def execEncode (s : State) : Host.Outcome State Fault Refusal := .next (s.withFrame .encode encodeFrame)

/-- The byte that an ENCODE in flight writes at a, or the byte already there if it writes none (20_memory.md R72;
log entry 9). -/
def State.outByteAfterEncode (s : State) (a : Nat) : Byte :=
  if s.valid ∧ s.frameBytes ≤ s.params.outCap ∧ a < s.frameBytes then s.frameByte a else s.outByte a

end Sys2Proof.Machine
end

