-- ==== Sys2Proof/Machine/Bus.lean ====
section
/-! DEFINITION. The host's accesses: the CSR space, IN_MEM and OUT_MEM (10_state.md sections 2 and 5, 20_memory.md). -/

namespace Sys2Proof.Machine

/-- What a read of a register returns (10_state.md R22 to R39). -/
def State.csrValue (s : State) : Csr → Word
  | .id => 0x464C5401#32
  | .ctrl => ctrlWord s
  | .status => statusWord s
  | .cmd => 0#32
  | .inLen => s.inLen
  | .outLen => s.outLen
  | .width => s.width
  | .height => s.height
  | .padding => 0#30 ++ s.padding
  | .errInfo => s.errInfo
  | .inCap => BitVec.ofNat 32 s.params.inCap
  | .outCap => BitVec.ofNat 32 s.params.outCap
  | .pixCap => BitVec.ofNat 32 s.params.pixCap
  | .hdr k => BitVec.ofNat 32 (if k.val = 13 then le16 s.hdrByte 52 else le32 s.hdrByte (4 * k.val))

/-- What a CSR read returns: 0 at a reserved offset and for an access that is not an aligned 32-bit one
(10_state.md R40, 20_memory.md R61). -/
def State.csrRead (s : State) (bytes : Nat) (offset : BitVec 12) : Word :=
  match csrAccessed bytes offset with
  | some c => s.csrValue c
  | none => 0#32

/-- A write to CTRL: with bit 31 set a soft reset, the other bits ignored; else IRQ_EN and RND
(10_state.md R24 to R28). -/
def State.writeCtrl (v : Word) (s : State) : State :=
  if v.getLsbD 31 then s.softReset
  else { s with rnd := rndWritten (v.extractLsb' 0 2) s.rnd, irqEn := v.getLsbD 2 }

/-- A write to IN_LEN stores `min(v, IN_CAP)` (10_state.md R32). -/
def State.writeInLen (v : Word) (s : State) : State :=
  { s with inLen := BitVec.ofNat 32 (min v.toNat s.params.inCap) }

/-- A write to a register; a write to a read-only register is ignored (10_state.md R22). -/
def State.csrStore (v : Word) (s : State) : Csr → State
  | .ctrl => s.writeCtrl v
  | .status => s.ackStatus v
  | .cmd => s.issue v
  | .inLen => s.writeInLen v
  | .id => s
  | .outLen => s
  | .width => s
  | .height => s
  | .padding => s
  | .errInfo => s
  | .inCap => s
  | .outCap => s
  | .pixCap => s
  | .hdr _ => s

/-- A CSR write: ignored at a reserved offset and for an access that is not an aligned 32-bit one
(10_state.md R40, 20_memory.md R61). -/
def State.csrWrite (bytes : Nat) (offset : BitVec 12) (v : Word) (s : State) : State :=
  match csrAccessed bytes offset with
  | some c => s.csrStore v c
  | none => s

/-- Is a DECODE in flight? -/
def State.decodeInFlight (s : State) : Bool := s.busy && decide (s.pend.word = encode .decode)

/-- Is an ENCODE in flight? -/
def State.encodeInFlight (s : State) : Bool := s.busy && decide (s.pend.word = encode .encode)

/-- A host write of one byte of IN_MEM. At or above the capacity it is not stored (20_memory.md R62). While a
DECODE is in flight, that DECODE sees the byte's former value or the new one, by a free choice (R71; log entry 8). -/
def State.writeInByte (a : Nat) (b : Byte) (s : State) : State :=
  if a < s.params.inCap then
    if s.decodeInFlight then
      { s with
        inMem := Memory.put s.inMem a b
        raced := Memory.put s.raced a (if Config.raceTakesNew s.draws then b else s.decodeByte a)
        draws := s.draws + 1 }
    else { s with inMem := Memory.put s.inMem a b }
  else s

/-- A host write to IN of the low n bytes of v, byte k at a + k (20_memory.md R59, R62). -/
def State.writeIn (a : Nat) (v : Word) (s : State) : Nat → State
  | 0 => s
  | n + 1 => (s.writeIn a v n).writeInByte (a + n) (byteOf v n)

/-- A host read of one byte of OUT_MEM. In the output range of an ENCODE in flight it is the former value or the
one the ENCODE writes there, by a free choice (20_memory.md R72). DESIGN CHOICE (log entry 22): each raced read chooses
anew, so two of them in a row need not agree, although R65 calls every read idempotent. -/
def State.readOutByte (s : State) (draw a : Nat) : Byte :=
  if s.encodeInFlight && decide (a < s.frameBytes) && Config.raceTakesNew draw then s.outByteAfterEncode a
  else s.outByte a

/-- The value of a host read of n bytes of OUT at a (20_memory.md R59). -/
def State.readOut (s : State) (n a : Nat) : Word :=
  BitVec.ofNat 32 (littleEndian (fun k => s.readOutByte (s.draws + k) (a + k)) n)

/-- The value of a host read of n bytes of IN at a (20_memory.md R59). -/
def State.readIn (s : State) (n a : Nat) : Word := BitVec.ofNat 32 (littleEndian (fun k => s.inByte (a + k)) n)

/-- What a host read leaves: the value in the host's hands, and nothing else of the spec's state (20_memory.md R65). -/
def State.answer (v : Word) (s : State) : State := { s with reads := v :: s.reads }

/-- The free choices that a racing read of n bytes used up. DESIGN CHOICE (log entry 22): the next raced read of the same
byte chooses anew (20_memory.md R65, R72). -/
def State.spendDraws (n : Nat) (s : State) : State :=
  if s.encodeInFlight then { s with draws := s.draws + n } else s

/-- One host access (10_state.md R47, 20_memory.md R59 to R62). A host write to OUT is ignored (R55). -/
def hostAccess (x : HostAccess) (s : State) : State :=
  match x with
  | .csrRead bytes offset => s.answer (s.csrRead bytes offset)
  | .csrWrite bytes offset v => s.csrWrite bytes offset v
  | .inRead n a => s.answer (s.readIn n.bytes a)
  | .inWrite n a v => s.writeIn a v n.bytes
  | .outRead n a => (s.spendDraws n.bytes).answer (s.readOut n.bytes a)
  | .outWrite _ _ _ => s

end Sys2Proof.Machine
end

