-- ==== Sys2Proof/Machine/Arith.lean ====
section
/-! DEFINITION. The arithmetic primitives of the pixel units: rounding quotient and saturation. All of it is exact
integer arithmetic (00_scope.md R11). -/

namespace Sys2Proof.Machine

/-- `RoundDiv(a, n, mode)` (00_scope.md R16), for n >= 1. -/
def roundDiv (a n : Nat) (mode : RoundMode) : Nat :=
  let q := a / n
  let r := a - q * n
  match mode with
  | .halfUp => (2 * a + n) / (2 * n)
  | .trunc => q
  | .halfEven => if 2 * r < n then q else if n < 2 * r then q + 1 else q + q % 2

/-- `Sat8(v) = min(v, 255)` (00_scope.md R17). -/
def sat8 (v : Nat) : Nat := min v 255

/-- A channel value: the saturated rounding quotient, stored in 8 bits. -/
def channel (a n : Nat) (mode : RoundMode) : Byte := BitVec.ofNat 8 (sat8 (roundDiv a n mode))

end Sys2Proof.Machine
end

