-- ==== Sys2Proof/Machine/Blur.lean ====
section
/-! DEFINITION. The blur convolution engine: BLUR (43_blur.md). -/

namespace Sys2Proof.Machine

/-- The first index of the window around i, `max(i - 1, 0)`, which is subtraction of naturals (43_blur.md R128). -/
def windowLow (i : Nat) : Nat := i - 1

/-- The last index of the window around i in a dimension of size n, `min(i + 1, n - 1)` (43_blur.md R128). -/
def windowHigh (n i : Nat) : Nat := min (i + 1) (n - 1)

/-- How many indexes the window around i has in a dimension of size n (43_blur.md R128). -/
def windowCount (n i : Nat) : Nat := windowHigh n i - windowLow i + 1

/-- The divisor n of the window at (r, c) of a frame of h rows by w columns (43_blur.md R128). -/
def windowSize (h w r c : Nat) : Nat := windowCount h r * windowCount w c

/-- The indexes of the window around i in a dimension of size n, rising (43_blur.md R128). -/
def windowIndexes (n i : Nat) : List Nat := List.range' (windowLow i) (windowCount n i)

/-- The sum of one channel over the window at (r, c), every pixel with weight 1 (43_blur.md R129). -/
def windowSum (h w : Nat) (f : Nat → Nat → Nat) (r c : Nat) : Nat :=
  ((windowIndexes h r).map fun i => ((windowIndexes w c).map fun j => f i j).sum).sum

/-- The blurred pixel at (r, c): each channel the rounded mean over the window of the snapshot (43_blur.md R129). -/
def blurPixel (mode : RoundMode) (h w : Nat) (snapshot : Nat → Nat → Pixel) (r c : Nat) : Pixel :=
  let n := windowSize h w r c
  { b := channel (windowSum h w (fun i j => (snapshot i j).b.toNat) r c) n mode
    g := channel (windowSum h w (fun i j => (snapshot i j).g.toNat) r c) n mode
    r := channel (windowSum h w (fun i j => (snapshot i j).r.toNat) r c) n mode }

/-- BLUR (43_blur.md R129): the snapshot is the frame at the start of the command, and PIX is replaced as a whole. -/
def execBlur (s : State) : Host.Outcome State Fault Refusal :=
  .next (s.withFrame .blur fun s =>
    (s.replacePixels (blurPixel s.pend.rnd s.height.toNat s.width.toNat s.pixel)).complete)

end Sys2Proof.Machine
end

