-- ==== Sys2Proof/Machine/Mixer.lean ====
section
/-! DEFINITION. The pixel colour-space mixer: GRAYSCALE (41_grayscale.md) and SEPIA (44_sepia.md). -/

namespace Sys2Proof.Machine

/-- The rounded mean of a pixel's own channels, in all three channels (41_grayscale.md R116). -/
def grayPixel (mode : RoundMode) (p : Pixel) : Pixel :=
  let a := channel (p.b.toNat + p.g.toNat + p.r.toNat) 3 mode
  { b := a, g := a, r := a }

/-- GRAYSCALE (41_grayscale.md R116), with the rounding mode latched at acceptance. -/
def execGrayscale (s : State) : Host.Outcome State Fault Refusal :=
  .next (s.withFrame .grayscale fun s =>
    (s.replacePixels fun r c => grayPixel s.pend.rnd (s.pixel r c)).complete)

/-- The colour matrix in thousandths (44_sepia.md R138), all three outputs from the pixel's original channels (R140). -/
def sepiaPixel (mode : RoundMode) (p : Pixel) : Pixel :=
  let b := p.b.toNat
  let g := p.g.toNat
  let x := p.r.toNat
  { b := channel (272 * x + 534 * g + 131 * b) 1000 mode
    g := channel (349 * x + 686 * g + 168 * b) 1000 mode
    r := channel (393 * x + 769 * g + 189 * b) 1000 mode }

/-- SEPIA (44_sepia.md R139), with the rounding mode latched at acceptance. -/
def execSepia (s : State) : Host.Outcome State Fault Refusal :=
  .next (s.withFrame .sepia fun s =>
    (s.replacePixels fun r c => sepiaPixel s.pend.rnd (s.pixel r c)).complete)

end Sys2Proof.Machine
end

