-- ==== Sys2Proof/Machine/Reflect.lean ====
section
/-! DEFINITION. The row-wise reflect unit: REFLECT (42_reflect.md). -/

namespace Sys2Proof.Machine

/-- REFLECT (42_reflect.md R122): `PIX'[r][c] = PIX[r][WIDTH-1-c]`, which is what the disjoint swaps of each row
give in any order (R123; log entry 15). -/
def execReflect (s : State) : Host.Outcome State Fault Refusal :=
  .next (s.withFrame .reflect fun s =>
    (s.replacePixels fun r c => s.pixel r (s.width.toNat - 1 - c)).complete)

end Sys2Proof.Machine
end

