-- ==== Sys2Proof/Machine/Dispatch.lean ====
section
/-! DEFINITION. Which meaning each command has: the case split of Execute (60_exceptions.md R149). -/

namespace Sys2Proof.Machine

/-- The body and completion of the latched command, one arm per command (60_exceptions.md R149). -/
def exec (i : Instr) (s : State) : Host.Outcome State Fault Refusal :=
  match i with
  | .decode => Sys2Proof.Machine.execDecode s
  | .encode => Sys2Proof.Machine.execEncode s
  | .grayscale => Sys2Proof.Machine.execGrayscale s
  | .reflect => Sys2Proof.Machine.execReflect s
  | .blur => Sys2Proof.Machine.execBlur s
  | .sepia => Sys2Proof.Machine.execSepia s

end Sys2Proof.Machine
end

