-- ==== Sys2Proof/Machine/Engine.lean ====
section
/-! DEFINITION. What each agent does in its turn (10_state.md R47). -/

namespace Sys2Proof.Machine

/-- Execute (60_exceptions.md R149): a legal latched word runs its command; any other raises ILLEGAL_COMMAND with
the whole word as the detail value (30_encoding.md R80). -/
def execute (s : State) : Host.Outcome State Fault Refusal :=
  match decodeWord s.pend.word with
  | .command i => exec i s
  | .rejected _ => .next (s.raise none .illegalCommand s.pend.word.toNat)

/-- A turn of the engine. Execute is enabled exactly when BUSY = 1 (10_state.md R48); else the engine waits. -/
def engineTurn (s : State) : Host.Outcome State Fault Refusal := if s.busy then execute s else .next s

/-- One turn of an agent (10_state.md R47). -/
def takeTurn (t : Turn) (s : State) : Host.Outcome State Fault Refusal :=
  match t with
  | .host x => .next (hostAccess x s)
  | .engine => engineTurn s
  | .hardwareReset => .next s.hardwareReset

end Sys2Proof.Machine
end

