-- ==== Sys2Proof/Machine/Step.lean ====
section
/-! DEFINITION. One step of the machine, and the loading of a command from outside. -/

namespace Sys2Proof.Machine

/-- One step: the next planned turn is taken; when nothing is planned, the engine moves, so an accepted command
executes after finitely many host steps (10_state.md R47, R49; log entries 5 and 6). -/
def step (s : State) : Host.Outcome State Fault Refusal :=
  match s.schedule with
  | [] => engineTurn s
  | t :: rest => takeTurn t { s with schedule := rest }

/-- `s` with the command word `w` accepted and the engine next to move, so that the next step executes exactly
that word (10_state.md R45; log entry 5). The machine fetches nothing; a command comes from the host's CMD write. -/
def State.withFetchWord (s : State) (nbits w : Nat) : State := s.loadCommand (tableWord nbits w)

end Sys2Proof.Machine
end

