-- ==== Sys2Proof/Machine/HostProgram.lean ====
section
/-! DEFINITION. The host's programs: the assembler statements, the host operations and bus accesses they stand for, and
how the host plays them beside the engine (30_encoding.md section 3). -/

namespace Sys2Proof.Machine

/-! ### Statements -/

/-- The four filters that `filter` admits (30_encoding.md R93). -/
inductive Filter where
  | grayscale
  | reflect
  | blur
  | sepia
deriving DecidableEq, Repr

/-- The command of a filter (30_encoding.md R93). -/
def Filter.command : Filter → Instr
  | .grayscale => .grayscale
  | .reflect => .reflect
  | .blur => .blur
  | .sepia => .sepia

/-- A statement of the host assembler (30_encoding.md R87 to R89, R93). -/
inductive Stmt where
  | cmd (i : Instr)
  | cmdWord (w : Word)
  | wr (c : Csr) (v : Word)
  | rd (c : Csr)
  | inb (a : Nat) (bytes : List Byte)
  | outb (a n : Nat)
  | wait
  | run (i : Instr)
  | load (len : Word) (bytes : List Byte)
  | ack
  | setctl (rnd : BitVec 2) (irqEn : Bool)
  | srst
  | filter (f : Filter)
deriving DecidableEq, Repr

/-- A line: an optional label, a statement or none, and a comment (30_encoding.md R92). -/
structure Line where
  label : Option String
  stmt : Option Stmt
  comment : String
deriving DecidableEq, Repr

/-- What a program makes the host do: one bus access; or the loop of `wait`, which reads STATUS until bit 0 of the
value read is 0 (30_encoding.md R89), with the test of `filter` after it or not: where `stopOnError` is set, the host
stops if bit 2 of the last value read is 1 (R93). R93 does not say what that `stop` ends. DESIGN CHOICE (log entry 23): it
ends the whole program. -/
inductive HostOp where
  | access (x : HostAccess)
  | waitIdle (stopOnError : Bool)
deriving DecidableEq, Repr

/-- A 32-bit write of a named register (30_encoding.md R88). -/
def wrAccess (c : Csr) (v : Word) : HostAccess := .csrWrite 4 (csrOffset c) v

/-- A 32-bit read of a named register (30_encoding.md R88). -/
def rdAccess (c : Csr) : HostAccess := .csrRead 4 (csrOffset c)

/-- Consecutive 1-byte writes to IN_MEM from a on (30_encoding.md R88). -/
def inbAccesses (a : Nat) : List Byte → List HostAccess
  | [] => []
  | b :: rest => .inWrite .one a (b.setWidth 32) :: inbAccesses (a + 1) rest

/-- n consecutive 1-byte reads of OUT_MEM from a on (30_encoding.md R88). -/
def outbAccesses (a n : Nat) : List HostAccess := (List.range n).map fun k => .outRead .one (a + k)

/-- `run i`: the CMD write and the loop, with the test of `filter` after it or not (30_encoding.md R89, R93). -/
def runOps (i : Instr) (stopOnError : Bool) : List HostOp :=
  [.access (wrAccess .cmd (encode i)), .waitIdle stopOnError]

/-- The expansion of a statement (30_encoding.md R87 to R89, R93). -/
def stmtOps : Stmt → List HostOp
  | .cmd i => [.access (wrAccess .cmd (encode i))]
  | .cmdWord w => [.access (wrAccess .cmd w)]
  | .wr c v => [.access (wrAccess c v)]
  | .rd c => [.access (rdAccess c)]
  | .inb a bytes => (inbAccesses a bytes).map HostOp.access
  | .outb a n => (outbAccesses a n).map HostOp.access
  | .wait => [.waitIdle false]
  | .run i => runOps i false
  | .load len bytes => (inbAccesses 0 bytes ++ [wrAccess .inLen len]).map HostOp.access
  | .ack => [.access (wrAccess .status 0x00000016#32)]
  | .setctl rnd irqEn => [.access (wrAccess .ctrl (0#29 ++ BitVec.ofBool irqEn ++ rnd))]
  | .srst => [.access (wrAccess .ctrl 0x80000000#32)]
  | .filter f => runOps .decode true ++ runOps f.command true ++ runOps .encode false

/-- The expansion of a line; a label or a comment adds nothing (30_encoding.md R92). -/
def lineOps (l : Line) : List HostOp :=
  match l.stmt with
  | some st => stmtOps st
  | none => []

/-- The expansion of a program, line after line (30_encoding.md R91). -/
def programOps (p : List Line) : List HostOp := p.flatMap lineOps

/-! ### Encodings: the bus accesses -/

/-- The bus accesses of host operations (30_encoding.md R91). The number of STATUS reads of a loop is any number from 1
on (R89, R90): `busyReads` gives, loop after loop, how many reads answer BUSY = 1 before the one that ends it, and 0
where it ends. The accesses are those of a run in which no test of `filter` stops the program. -/
def opsAccesses (busyReads : List Nat) : List HostOp → List HostAccess
  | [] => []
  | .access x :: rest => x :: opsAccesses busyReads rest
  | .waitIdle _ :: rest =>
    List.replicate (busyReads.headD 0 + 1) (rdAccess .status) ++ opsAccesses busyReads.tail rest

/-- The encoding of a statement (30_encoding.md R91). -/
def stmtAccesses (busyReads : List Nat) (st : Stmt) : List HostAccess := opsAccesses busyReads (stmtOps st)

/-- The encoding of a program (30_encoding.md R91). -/
def programAccesses (busyReads : List Nat) (p : List Line) : List HostAccess := opsAccesses busyReads (programOps p)

/-- Where an access lands in the system's address map (20_memory.md R53, 30_encoding.md R91; log entry 16). -/
def systemAddress : HostAccess → Nat
  | .csrRead _ offset => Config.csrBase + offset.toNat
  | .csrWrite _ offset _ => Config.csrBase + offset.toNat
  | .inRead _ a => Config.inBase + a
  | .inWrite _ a _ => Config.inBase + a
  | .outRead _ a => Config.outBase + a
  | .outWrite _ a _ => Config.outBase + a

/-- The name of a register in a program (30_encoding.md R88, 10_state.md R22). -/
def csrName : Csr → String
  | .id => "ID"
  | .ctrl => "CTRL"
  | .status => "STATUS"
  | .cmd => "CMD"
  | .inLen => "IN_LEN"
  | .outLen => "OUT_LEN"
  | .width => "WIDTH"
  | .height => "HEIGHT"
  | .padding => "PADDING"
  | .errInfo => "ERR_INFO"
  | .inCap => "IN_CAP"
  | .outCap => "OUT_CAP"
  | .pixCap => "PIX_CAP"
  | .hdr k => "HDR" ++ toString k.val

/-! ### Playing a program beside the engine -/

/-- `n` steps in a row, stopping at the first outcome that is no next state. -/
def steps : Nat → State → Host.Outcome State Fault Refusal
  | 0, s => .next s
  | n + 1, s =>
    match step s with
    | .next t => steps n t
    | .fault r => .fault r
    | .refused r => .refused r

/-- A machine and the operations the host has still to do. -/
structure Playing where
  machine : State
  program : List HostOp
deriving DecidableEq, Repr

/-- Who moves next when a program is played. -/
inductive Mover where
  | host
  | engine
deriving DecidableEq, Repr

/-- The bus access the host makes next, none when the program is at its end. -/
def nextAccess : List HostOp → Option HostAccess
  | [] => none
  | .access x :: _ => some x
  | .waitIdle _ :: _ => some (rdAccess .status)

/-- The operations left after the host's access, given the last value the host has read: a loop goes on while bit 0 of
it is 1 (30_encoding.md R89), and where bit 2 of it is 1 a stopping loop stops (R93). DESIGN CHOICE (log entry 23): the
stop drops the statements after the `filter` too, where R93 may mean the `filter` alone. -/
def opsAfter (lastRead : Word) : List HostOp → List HostOp
  | [] => []
  | .access _ :: rest => rest
  | .waitIdle stopOnError :: rest =>
    if lastRead.getLsbD 0 then .waitIdle stopOnError :: rest
    else if stopOnError && lastRead.getLsbD 2 then []
    else rest

/-- One step of a machine whose next turn is `turn`, with `program` given what the host has then read. -/
def Playing.after (turn : Turn) (program : Word → List HostOp) (s : State) : Host.Outcome Playing Fault Refusal :=
  match step { s with schedule := turn :: s.schedule } with
  | .next t => .next { machine := t, program := program (t.reads.headD 0#32) }
  | .fault r => .fault r
  | .refused r => .refused r

/-- One move: the host makes its next access, if the program has one, or the engine has a turn. -/
def Playing.move (m : Mover) (p : Playing) : Host.Outcome Playing Fault Refusal :=
  match m with
  | .engine => Playing.after .engine (fun _ => p.program) p.machine
  | .host =>
    match nextAccess p.program with
    | some x => Playing.after (.host x) (fun lastRead => opsAfter lastRead p.program) p.machine
    | none => .next p

/-- The moves of an order, one after the other. -/
def play : List Mover → Playing → Host.Outcome Playing Fault Refusal
  | [], p => .next p
  | m :: rest, p =>
    match p.move m with
    | .next q => play rest q
    | .fault r => .fault r
    | .refused r => .refused r

/-- An order of the steps of one `run`: the CMD write, `busyReads` STATUS reads before Execute, Execute, and one read
after it. Execute is enabled only while BUSY = 1 (10_state.md R48) and comes after finitely many host steps (R49), so
every order of a `run`'s steps is this one for some number. -/
def runOrder (busyReads : Nat) : List Mover := .host :: (List.replicate busyReads .host ++ [.engine, .host])

/-- `run i` played in the order with `busyReads` STATUS reads before Execute (30_encoding.md R89). -/
def runCommand (i : Instr) (busyReads : Nat) (s : State) : Host.Outcome Playing Fault Refusal :=
  play (runOrder busyReads) { machine := s, program := stmtOps (.run i) }

/-- `filter f` played in the order with `d`, `k` and `e` STATUS reads before the three Executes (30_encoding.md R93). -/
def runFilter (f : Filter) (d k e : Nat) (s : State) : Host.Outcome Playing Fault Refusal :=
  play (runOrder d ++ runOrder k ++ runOrder e) { machine := s, program := stmtOps (.filter f) }

end Sys2Proof.Machine
end

