-- ==== Sys2Proof/Safety.lean ====
section
/-! DEFINITION. The invariant of the machine, the hazards the host must respect, and what counts as a safe run. -/

namespace Sys2Proof.Machine

/-- The geometry registers always show the stored header (40_codec.md R102; 10_state.md R34 to R36, R41, R51). -/
structure HeaderShown (s : State) : Prop where
  width : (s.width.toNat : Int) = sle32 s.hdrByte 18
  height : s.height.toNat = (sle32 s.hdrByte 22).natAbs
  padding : s.padding.toNat = pad s.width.toNat

/-- A frame held is one that DECODE accepts (40_codec.md R97 to R99, R102; 10_state.md R42). -/
structure FrameHeld (s : State) : Prop where
  signature : le16 s.hdrByte 0 = 0x4D42
  pixelDataOffset : le32 s.hdrByte 10 = 54
  headerSize : le32 s.hdrByte 14 = 40
  bitsPerPixel : le16 s.hdrByte 28 = 24
  compression : le32 s.hdrByte 30 = 0
  fits : s.width.toNat * s.height.toNat ≤ s.params.pixCap
  cells : s.pix.length = s.height.toNat * s.width.toNat

/-- How the completion report stands (10_state.md R29, R45; 60_exceptions.md R148, R150, R151, R159). -/
structure ReportCoherent (s : State) : Prop where
  oneReport : ¬(s.done = true ∧ s.error = true)
  errorHasCode : s.error = true → s.errCode ≠ .none
  doneHasNoCode : s.done = true → s.errCode = .none
  noCodeNoInfo : s.errCode = .none → s.errInfo = 0#32
  runningHasNoReport : s.busy = true → s.done = false ∧ s.error = false ∧ s.errCode = .none
  runningShowsOpcode : s.busy = true → s.lastOp = opcodeOf s.pend.word

/-- The memories are in canonical form within their capacities, and only a DECODE in flight has raced bytes (log
entries 2, 8 and 17). -/
structure MemoriesCanonical (s : State) : Prop where
  inMem : Memory.wf s.params.inCap s.inMem = true
  outMem : Memory.wf s.params.outCap s.outMem = true
  raced : Memory.wf s.params.inCap s.raced = true
  racedOnlyInDecode : s.decodeInFlight = false → s.raced = []

/-- The lengths stay within the memories (10_state.md R32, R33); PEND.inlen does while a command is latched (R44). -/
structure LengthsBounded (s : State) : Prop where
  inLen : s.inLen.toNat ≤ s.params.inCap
  pendInLen : s.busy = true → s.pend.inLen.toNat ≤ s.params.inCap
  outLen : s.outLen.toNat ≤ s.params.outCap

/-- The invariant of the machine: it holds after reset with any legal parameters, and every step keeps it. -/
structure Inv (s : State) : Prop where
  params : s.params.wf = true
  header : HeaderShown s
  frame : s.valid = true → FrameHeld s
  report : ReportCoherent s
  memories : MemoriesCanonical s
  lengths : LengthsBounded s

/-- The engine moves next, and `u` is the state in which it moves: nothing is planned, or a turn of the engine is
taken off the plan (10_state.md R47, R49). -/
def engineMoves (s u : State) : Prop :=
  (s.schedule = [] ∧ u = s) ∨ ∃ rest, s.schedule = .engine :: rest ∧ u = { s with schedule := rest }

/-- The next step executes the latched word `w` (10_state.md R48). -/
def executesNow (s : State) (w : Word) : Prop := (∃ u, engineMoves s u) ∧ s.busy = true ∧ s.pend.word = w

/-- The next step is a hardware reset or a soft reset (70_reset_and_hazards.md R167, R170). -/
def resetsNow (s : State) : Prop :=
  (∃ rest, s.schedule = .hardwareReset :: rest) ∨
    ∃ v rest, s.schedule = .host (.csrWrite 4 0x004#12 v) :: rest ∧ v.getLsbD 31 = true

/-- Does the access touch an IN byte that a DECODE in flight may read (70_reset_and_hazards.md R176)? -/
def racesDecode (s : State) : HostAccess → Bool
  | .inWrite _ _ _ => s.decodeInFlight
  | _ => false

/-- Does the access read an OUT byte that an ENCODE in flight may write (70_reset_and_hazards.md R177)? -/
def racesEncode (s : State) : HostAccess → Bool
  | .outRead _ a => s.encodeInFlight && decide (a < s.frameBytes)
  | _ => false

/-- Is the access a CMD write that would be dropped (70_reset_and_hazards.md R175)? -/
def overruns (s : State) : HostAccess → Bool
  | .csrWrite bytes offset _ => s.busy && decide (csrAccessed bytes offset = some .cmd)
  | _ => false

/-- The host respects the hazards of 70_reset_and_hazards.md R175 to R177 in this turn. -/
def hazardFree (s : State) : Turn → Bool
  | .host x => !(racesDecode s x || racesEncode s x || overruns s x)
  | .engine => true
  | .hardwareReset => true

/-- A step is safe when it answers a next state and the turn it took respects the hazards. -/
def safeStep (s : State) : Prop :=
  (∃ t, step s = .next t) ∧ ∀ turn rest, s.schedule = turn :: rest → hazardFree s turn = true

end Sys2Proof.Machine
end

