-- ==== Sys2Proof/Certificates/Slice0/Obligations.lean ====
section
/-! DEFINITION. The statements for the provers. Each docstring names the rules of spec/ it formalises. The free
values of log entries 2, 4, 8, 9, 10 and 22 may be anything in every statement, and no statement rests on a value that
State.reset takes from log entry 1 or 3. The field `raced` is the model's own (log entry 8); that a reset leaves it
empty (log entry 17) is used by `Inv`, in ResetMeetsInvariant and StepKeepsInvariant, and nowhere else. -/

open Sys2Proof Sys2Proof.Machine

namespace Sys2Proof.Claims

/-- What a successful completion adds to what the body wrote (60_exceptions.md R150). -/
def doneState (s : State) : State := { s with busy := false, done := true, raced := [] }

/-- What a failed completion writes for every command (60_exceptions.md R151). -/
def failedState (s : State) (e : ErrCode) (info : Word) : State :=
  { s with busy := false, error := true, errCode := e, errInfo := info, raced := [] }

/-- The bytes `A`, `L` of them valid, are a frame that DECODE accepts with `cap` pixel cells (40_codec.md R95). -/
def Acceptable (A : Nat → Byte) (L cap : Nat) : Prop :=
  54 ≤ L ∧ le16 A 0 = 0x4D42 ∧ le32 A 10 = 54 ∧ le32 A 14 = 40 ∧ le16 A 28 = 24 ∧ le32 A 30 = 0 ∧
    0 ≤ sle32 A 18 ∧ (sle32 A 18).toNat * (sle32 A 22).natAbs ≤ cap ∧
    54 + (sle32 A 22).natAbs * stride (sle32 A 18).toNat ≤ L

end Sys2Proof.Claims

open Sys2Proof.Claims

/-! ### Encoding -/

/-- 30_encoding.md R78: the six full words, written out bit by bit. -/
def Obligations.SixWordsDecode : Prop :=
  decodeWord 0b00000000000000000000000001100100#32 = .command .decode ∧
  decodeWord 0b00000000000000000000000001100101#32 = .command .encode ∧
  decodeWord 0b00000000000000000000000001100111#32 = .command .grayscale ∧
  decodeWord 0b00000000000000000000000001110010#32 = .command .reflect ∧
  decodeWord 0b00000000000000000000000001100010#32 = .command .blur ∧
  decodeWord 0b00000000000000000000000001110011#32 = .command .sepia

/-- 30_encoding.md R79: a word selects a command exactly when it equals that command's full word. -/
def Obligations.WordSelectsCommandExactly : Prop :=
  (∀ (w : Word) (i : Instr), decodeWord w = .command i ↔ w = encode i) ∧
  ∀ w : Word, (∀ i, w ≠ encode i) → ∃ why, decodeWord w = .rejected why

/-- 30_encoding.md R76, 20_memory.md R58: every well-formed command's four bytes decode to it, whatever follows,
and no other bytes do. -/
def Obligations.DecodeBytesInvertsEncodeBytes : Prop :=
  ∀ (i : Instr) (bytes rest : List Byte), i.wf = true →
    (decodeBytes bytes = (.command i, rest) ↔ bytes = encodeBytes i ++ rest)

/-! ### The engine's step -/

/-- 10_state.md R48, 60_exceptions.md R149: when the engine moves with a command latched, the step is `exec` of that
command, in the state with the engine's turn taken off the plan (the plan is the model's, log entry 5). -/
def Obligations.StepRunsDecodedCommand : Prop :=
  ∀ (s u : State) (i : Instr), engineMoves s u → s.busy = true → decodeWord s.pend.word = .command i →
    step s = exec i u

/-- 30_encoding.md R80: an illegal word fails with ILLEGAL_COMMAND, the whole word as detail, and changes no frame
state. -/
def Obligations.IllegalWordFails : Prop :=
  ∀ s u : State, engineMoves s u → s.busy = true → (∀ i, s.pend.word ≠ encode i) →
    step s = .next (failedState u .illegalCommand s.pend.word)

/-- 10_state.md R48: with BUSY = 0 the engine's turn changes nothing (the model's choice, log entry 6). -/
def Obligations.EngineWaitsForCommand : Prop :=
  ∀ s u : State, engineMoves s u → s.busy = false → step s = .next u

/-- No condition stops the machine (20_memory.md R61, R62; 10_state.md R40; 60_exceptions.md R151): every step of
every state answers a next state. -/
def Obligations.EveryStepAnswersNext : Prop := ∀ s : State, ∃ t, step s = .next t

/-- 10_state.md R49, 30_encoding.md R90: whatever is planned, once the plan is used up and the engine has moved, no
command is left running. That Execute comes then is the model's way to say fairness (log entry 6). -/
def Obligations.AcceptedCommandCompletes : Prop :=
  ∀ s : State, ∃ t, steps (s.schedule.length + 1) s = .next t ∧ t.busy = false ∧ t.schedule = []

/-- 60_exceptions.md R148, R150, R151: Execute ends the command and reports exactly one of DONE and ERROR, an error
with a code and a success with none. -/
def Obligations.CompletionReportsExactlyOne : Prop :=
  ∀ s u : State, engineMoves s u → s.busy = true → ReportCoherent s →
    ∃ t, step s = .next t ∧ t.busy = false ∧ t.done = !t.error ∧ (t.error = true ↔ t.errCode ≠ .none)

/-! ### Command issue and the registers -/

/-- 10_state.md R45: acceptance of a command word, as one step; every word is accepted. -/
def Obligations.CommandAcceptance : Prop :=
  ∀ (s : State) (v : Word) (rest : List Turn), s.busy = false →
    s.schedule = .host (.csrWrite 4 0x00C#12 v) :: rest →
    step s = .next { s with
      schedule := rest, pend := { word := v, rnd := s.rnd, inLen := s.inLen }, busy := true
      lastOp := v.extractLsb' 0 8, done := false, error := false, errCode := .none, errInfo := 0#32, raced := [] }

/-- 10_state.md R46: a CMD write while BUSY = 1 is dropped and sets OVR, nothing else. -/
def Obligations.CommandOverrun : Prop :=
  ∀ (s : State) (v : Word) (rest : List Turn), s.busy = true →
    s.schedule = .host (.csrWrite 4 0x00C#12 v) :: rest →
    step s = .next { s with schedule := rest, ovr := true }

/-- 10_state.md R24, R25, R26, R28: a CTRL write without bit 31 writes IRQ_EN and, unless bits 1:0 are 0b11, RND. -/
def Obligations.CtrlWrite : Prop :=
  ∀ (s : State) (v : Word) (rest : List Turn), v.getLsbD 31 = false →
    s.schedule = .host (.csrWrite 4 0x004#12 v) :: rest →
    ∃ t, step s = .next t ∧ t = { s with schedule := rest, irqEn := v.getLsbD 2, rnd := t.rnd } ∧
      (v.extractLsb' 0 2 = 0b00#2 → t.rnd = .halfUp) ∧ (v.extractLsb' 0 2 = 0b01#2 → t.rnd = .trunc) ∧
      (v.extractLsb' 0 2 = 0b10#2 → t.rnd = .halfEven) ∧ (v.extractLsb' 0 2 = 0b11#2 → t.rnd = s.rnd)

/-- 10_state.md R30: a STATUS write clears DONE, ERROR and OVR where v has a 1, and nothing else. -/
def Obligations.StatusWriteOneToClear : Prop :=
  ∀ (s : State) (v : Word) (rest : List Turn), s.schedule = .host (.csrWrite 4 0x008#12 v) :: rest →
    ∃ t, step s = .next t ∧ t = { s with schedule := rest, done := t.done, error := t.error, ovr := t.ovr } ∧
      (t.done = true ↔ s.done = true ∧ v.getLsbD 1 = false) ∧
      (t.error = true ↔ s.error = true ∧ v.getLsbD 2 = false) ∧
      (t.ovr = true ↔ s.ovr = true ∧ v.getLsbD 4 = false)

/-- 10_state.md R32: an IN_LEN write stores min(v, IN_CAP), and a read returns what is stored. -/
def Obligations.InLenWriteIsCapped : Prop :=
  ∀ (s : State) (v : Word) (rest : List Turn), s.schedule = .host (.csrWrite 4 0x010#12 v) :: rest →
    ∃ t, step s = .next t ∧ t = { s with schedule := rest, inLen := t.inLen } ∧
      t.inLen.toNat = min v.toNat s.params.inCap ∧ t.csrRead 4 0x010#12 = t.inLen

/-- 10_state.md R22, R40, 20_memory.md R55, R61: a write to a read-only or reserved offset, a CSR write that is not
an aligned 32-bit one and a host write to OUT are ignored. -/
def Obligations.IgnoredWritesChangeNothing : Prop :=
  ∀ (s : State) (rest : List Turn),
    (∀ (bytes : Nat) (offset : BitVec 12) (v : Word), s.schedule = .host (.csrWrite bytes offset v) :: rest →
      (bytes ≠ 4 ∨ offset.toNat % 4 ≠ 0 ∨ offset = 0x000#12 ∨ 0x014 ≤ offset.toNat) →
      step s = .next { s with schedule := rest }) ∧
    ∀ (n : Size) (a : Nat) (v : Word), s.schedule = .host (.outWrite n a v) :: rest →
      step s = .next { s with schedule := rest }

/-- 10_state.md R40, 20_memory.md R61: a read of a reserved offset, and a CSR read that is not an aligned 32-bit one,
returns 0; so does a read of CMD (10_state.md R31). What a CSR read hands the host is `State.csrRead`, of which
StatusReadLayout, RegisterReads, HeaderWindowReads, InLenWriteIsCapped and IdentityAndCapacitiesConstant speak; it
changes nothing but what the host has read (20_memory.md R65; log entry 7). -/
def Obligations.CsrReadsAnswerWithoutSideEffect : Prop :=
  ∀ (s : State) (bytes : Nat) (offset : BitVec 12) (rest : List Turn),
    s.schedule = .host (.csrRead bytes offset) :: rest →
    step s = .next { s with schedule := rest, reads := s.csrRead bytes offset :: s.reads } ∧
      ((bytes ≠ 4 ∨ offset.toNat % 4 ≠ 0 ∨ offset = 0x00C#12 ∨ (0x034 ≤ offset.toNat ∧ offset.toNat ≤ 0x0FC) ∨
        0x138 ≤ offset.toNat) → s.csrRead bytes offset = 0#32)

/-- 10_state.md R29, 60_exceptions.md R146: the fields of a STATUS read, with the numbers of the error codes. -/
def Obligations.StatusReadLayout : Prop :=
  ∀ s : State, (s.csrRead 4 0x008#12).getLsbD 0 = s.busy ∧ (s.csrRead 4 0x008#12).getLsbD 1 = s.done ∧
    (s.csrRead 4 0x008#12).getLsbD 2 = s.error ∧ (s.csrRead 4 0x008#12).getLsbD 3 = s.valid ∧
    (s.csrRead 4 0x008#12).getLsbD 4 = s.ovr ∧ (s.csrRead 4 0x008#12).extractLsb' 5 3 = 0#3 ∧
    (s.csrRead 4 0x008#12).extractLsb' 8 8 = s.lastOp ∧
    (s.csrRead 4 0x008#12).extractLsb' 16 8 =
      (match s.errCode with
        | .none => 0#8
        | .formatError => 1#8
        | .truncatedInput => 2#8
        | .resourceExhausted => 3#8
        | .ioError => 4#8
        | .illegalCommand => 5#8
        | .noFrame => 6#8) ∧
    (s.csrRead 4 0x008#12).extractLsb' 24 8 = 0#8

/-- 10_state.md R22, R24, R33 to R37: what the other registers read as. -/
def Obligations.RegisterReads : Prop :=
  ∀ s : State, (s.csrRead 4 0x004#12).extractLsb' 3 29 = 0#29 ∧ (s.csrRead 4 0x004#12).getLsbD 2 = s.irqEn ∧
    (s.csrRead 4 0x004#12).extractLsb' 0 2 =
      (match s.rnd with
        | .halfUp => 0b00#2
        | .trunc => 0b01#2
        | .halfEven => 0b10#2) ∧
    s.csrRead 4 0x014#12 = s.outLen ∧ s.csrRead 4 0x018#12 = s.width ∧ s.csrRead 4 0x01C#12 = s.height ∧
    (s.csrRead 4 0x020#12).extractLsb' 0 2 = s.padding ∧ (s.csrRead 4 0x020#12).extractLsb' 2 30 = 0#30 ∧
    s.csrRead 4 0x024#12 = s.errInfo

/-- 10_state.md R39: HDR0 to HDR13 show the 54 stored header bytes, byte 4k + j in bits 8j+7:8j of HDRk. -/
def Obligations.HeaderWindowReads : Prop :=
  ∀ (s : State) (k j : Nat), k < 14 → j < 4 →
    (s.csrRead 4 (BitVec.ofNat 12 (0x100 + 4 * k))).extractLsb' (8 * j) 8 =
      if 4 * k + j < 54 then s.hdrByte (4 * k + j) else 0#8

/-- 10_state.md R23, R38: the identity is a constant and no step changes the implementation parameters, which the
capacity registers show. -/
def Obligations.IdentityAndCapacitiesConstant : Prop :=
  (∀ s : State, s.csrRead 4 0x000#12 = 0x464C5401#32) ∧ (∀ s t : State, step s = .next t → t.params = s.params) ∧
  ∀ s : State, s.params.wf = true → (s.csrRead 4 0x028#12).toNat = s.params.inCap ∧
    (s.csrRead 4 0x02C#12).toNat = s.params.outCap ∧ (s.csrRead 4 0x030#12).toNat = s.params.pixCap

/-- 60_exceptions.md R154: the interrupt level, and the steps in which it rises. -/
def Obligations.InterruptLevel : Prop :=
  (∀ s : State, s.irq = true ↔ s.irqEn = true ∧ (s.done = true ∨ s.error = true)) ∧
  (∀ s u : State, engineMoves s u → s.busy = true → s.irqEn = true →
    (ReportCoherent s → s.irq = false) ∧ ∃ t, step s = .next t ∧ t.irq = true) ∧
  ∀ (s : State) (v : Word) (rest : List Turn), s.schedule = .host (.csrWrite 4 0x004#12 v) :: rest →
    v.getLsbD 31 = false → (s.done = true ∨ s.error = true) → ∃ t, step s = .next t ∧ t.irq = v.getLsbD 2

/-- 70_reset_and_hazards.md R178, 10_state.md R44: a write of CTRL or IN_LEN while a command runs is performed at
once and leaves PEND alone, and the command's outcome is the same as if the write came after it. -/
def Obligations.RunningCommandIgnoresCsrWrites : Prop :=
  ∀ (s : State) (v : Word) (x : HostAccess), s.busy = true →
    (x = .csrWrite 4 0x004#12 v ∧ v.getLsbD 31 = false ∨ x = .csrWrite 4 0x010#12 v) →
    (∃ t, step { s with schedule := [.host x, .engine] } = .next t ∧ t.pend = s.pend ∧
      (x = .csrWrite 4 0x004#12 v → t.irq = (v.getLsbD 2 && (s.done || s.error)) ∧
        (v.extractLsb' 0 2 = 0b00#2 → t.rnd = .halfUp) ∧ (v.extractLsb' 0 2 = 0b01#2 → t.rnd = .trunc) ∧
        (v.extractLsb' 0 2 = 0b10#2 → t.rnd = .halfEven) ∧ (v.extractLsb' 0 2 = 0b11#2 → t.rnd = s.rnd)) ∧
      (x = .csrWrite 4 0x010#12 v → t.inLen.toNat = min v.toNat s.params.inCap)) ∧
    steps 2 { s with schedule := [.host x, .engine] } = steps 2 { s with schedule := [.engine, .host x] }

/-! ### The memories and the host -/

/-- 20_memory.md R59, R62: a write of n bytes to IN stores byte k of the value at a + k, below the capacity, leaves
every other byte of IN and everything else of the spec's state. -/
def Obligations.InWriteStoresBytes : Prop :=
  ∀ (s : State) (n : Size) (a : Nat) (v : Word) (rest : List Turn),
    s.schedule = .host (.inWrite n a v) :: rest →
    ∃ t, step s = .next t ∧
      t = { s with schedule := rest, inMem := t.inMem, raced := t.raced, draws := t.draws } ∧
      ∀ x, t.inByte x =
        if a ≤ x ∧ x < a + n.bytes ∧ x < s.params.inCap then v.extractLsb' (8 * (x - a)) 8 else s.inByte x

/-- 20_memory.md R59, R62, R65: a read of n bytes of IN answers them little-endian, 0 beyond the capacity, and
changes nothing but what the host has read. -/
def Obligations.InReadAnswersBytes : Prop :=
  ∀ (s : State) (n : Size) (a : Nat) (rest : List Turn), s.schedule = .host (.inRead n a) :: rest →
    ∃ v : Word, step s = .next { s with schedule := rest, reads := v :: s.reads } ∧
      ∀ k, k < 4 → v.extractLsb' (8 * k) 8 =
        if k < n.bytes ∧ a + k < s.params.inCap then s.inByte (a + k) else 0#8

/-- 20_memory.md R59, R62, R65, R72: a read of n bytes of OUT answers, for each byte, the byte that stands there or,
in the output range of an ENCODE in flight only, the byte that this ENCODE leaves there. -/
def Obligations.OutReadAnswersOldOrNewBytes : Prop :=
  ∀ (s : State) (n : Size) (a : Nat) (rest : List Turn), s.schedule = .host (.outRead n a) :: rest →
    ∃ v : Word, (∃ d, step s = .next { s with schedule := rest, reads := v :: s.reads, draws := d }) ∧
      (∀ k, k < n.bytes → v.extractLsb' (8 * k) 8 = s.outByte (a + k) ∨
        (s.busy = true ∧ s.pend.word = 0x00000065#32 ∧ a + k < s.frameBytes ∧
          ∃ t, exec .encode s = .next t ∧ v.extractLsb' (8 * k) 8 = t.outByte (a + k))) ∧
      ∀ k, n.bytes ≤ k → k < 4 → v.extractLsb' (8 * k) 8 = 0#8

/-- 20_memory.md R71: while a DECODE is in flight, after any number of host writes to IN, each byte the DECODE sees
is the one it saw before them or one that one of them gave it. -/
def Obligations.RacedDecodeSeesOldOrWritten : Prop :=
  ∀ (s : State) (writes : List (Size × Nat × Word)) (rest : List Turn),
    s.busy = true → s.pend.word = 0x00000064#32 →
    s.schedule = (writes.map fun w => Turn.host (.inWrite w.1 w.2.1 w.2.2)) ++ rest →
    ∃ t, steps writes.length s = .next t ∧ t.schedule = rest ∧ t.pend = s.pend ∧
      ∀ x, t.decodeByte x = s.decodeByte x ∨
        ∃ w ∈ writes, w.2.1 ≤ x ∧ x < w.2.1 + w.1.bytes ∧ x < s.params.inCap ∧
          t.decodeByte x = w.2.2.extractLsb' (8 * (x - w.2.1)) 8

/-- 20_memory.md R71: at acceptance, and whenever no write raced, a DECODE sees IN_MEM itself. -/
def Obligations.UnracedDecodeSeesInMem : Prop :=
  (∀ s : State, s.raced = [] → ∀ x, s.decodeByte x = s.inByte x) ∧
  ∀ (s : State) (v : Word) (rest : List Turn), s.busy = false →
    s.schedule = .host (.csrWrite 4 0x00C#12 v) :: rest →
    ∃ t, step s = .next t ∧ ∀ x, t.decodeByte x = t.inByte x ∧ t.inByte x = s.inByte x

/-- 30_encoding.md R88, R89: `load L, bytes` puts the bytes at the start of IN_MEM and min(L, IN_CAP) into IN_LEN. -/
def Obligations.LoadStatementFillsInput : Prop :=
  ∀ (s : State) (len : Word) (bytes : List Byte),
    ∃ t, steps (stmtAccesses [] (.load len bytes)).length
        { s with schedule := (stmtAccesses [] (.load len bytes)).map Turn.host } = .next t ∧
      t.schedule = [] ∧ t.inLen.toNat = min len.toNat s.params.inCap ∧
      ∀ x, t.inByte x = if h : x < bytes.length ∧ x < s.params.inCap then bytes[x]'h.1 else s.inByte x

/-! ### Results of the commands -/

/-- 60_exceptions.md R149, R151: with no frame held, every command but DECODE fails with NO_FRAME and the OPCODE of
the latched word. That an ENCODE failing so sets OUT_LEN to 0 is 10_state.md R33 and 40_codec.md R112, which the model
follows over R151 (log entry 11). -/
def Obligations.CommandsNeedFrame : Prop :=
  ∀ (s : State) (i : Instr), s.valid = false → i ≠ .decode →
    exec i s = .next { failedState s .noFrame ((s.pend.word.extractLsb' 0 8).setWidth 32) with
      outLen := if i = .encode then 0#32 else s.outLen }

/-- 40_codec.md R102: a DECODE that passes every check stores the header, the dimensions, the padding count and the
pixels, sets VALID, completes, and writes no other state. -/
def Obligations.DecodeCommitsFrame : Prop :=
  ∀ s : State, Acceptable s.decodeByte s.pend.inLen.toNat s.params.pixCap →
    ∃ t, exec .decode s = .next t ∧
      t = doneState { s with
        hdr := t.hdr, width := t.width, height := t.height, padding := t.padding, pix := t.pix, valid := true } ∧
      (∀ i, i < 54 → t.hdrByte i = s.decodeByte i) ∧
      (t.width.toNat : Int) = sle32 s.decodeByte 18 ∧ t.height.toNat = (sle32 s.decodeByte 22).natAbs ∧
      t.padding.toNat = (4 - 3 * t.width.toNat % 4) % 4 ∧ t.pix.length = t.height.toNat * t.width.toNat ∧
      ∀ r c, r < t.height.toNat → c < t.width.toNat →
        t.pixel r c =
          { b := s.decodeByte (54 + r * stride t.width.toNat + 3 * c)
            g := s.decodeByte (54 + r * stride t.width.toNat + 3 * c + 1)
            r := s.decodeByte (54 + r * stride t.width.toNat + 3 * c + 2) }

/-- 40_codec.md R95 to R101, 60_exceptions.md R153: the checks of DECODE in their order, each with its code and
detail value; a failing DECODE clears VALID and leaves the frame. -/
def Obligations.DecodeChecksInOrder : Prop :=
  ∀ (s : State) (A : Nat → Byte) (L W H : Nat), A = s.decodeByte → L = s.pend.inLen.toNat →
    W = (sle32 A 18).toNat → H = (sle32 A 22).natAbs →
    (∀ (e : ErrCode) (info : Nat),
      (L < 54 ∧ e = .truncatedInput ∧ info = 54) ∨
      (54 ≤ L ∧ le16 A 0 ≠ 0x4D42 ∧ e = .formatError ∧ info = 1) ∨
      (54 ≤ L ∧ le16 A 0 = 0x4D42 ∧ le32 A 10 ≠ 54 ∧ e = .formatError ∧ info = 2) ∨
      (54 ≤ L ∧ le16 A 0 = 0x4D42 ∧ le32 A 10 = 54 ∧ le32 A 14 ≠ 40 ∧ e = .formatError ∧ info = 3) ∨
      (54 ≤ L ∧ le16 A 0 = 0x4D42 ∧ le32 A 10 = 54 ∧ le32 A 14 = 40 ∧ le16 A 28 ≠ 24 ∧ e = .formatError ∧
        info = 4) ∨
      (54 ≤ L ∧ le16 A 0 = 0x4D42 ∧ le32 A 10 = 54 ∧ le32 A 14 = 40 ∧ le16 A 28 = 24 ∧ le32 A 30 ≠ 0 ∧
        e = .formatError ∧ info = 5) ∨
      (54 ≤ L ∧ le16 A 0 = 0x4D42 ∧ le32 A 10 = 54 ∧ le32 A 14 = 40 ∧ le16 A 28 = 24 ∧ le32 A 30 = 0 ∧
        ((sle32 A 18 < 0 ∧ e = .formatError ∧ info = 6) ∨
         (0 ≤ sle32 A 18 ∧ s.params.pixCap < W * H ∧ e = .resourceExhausted ∧ info = min (W * H) 0xFFFFFFFF) ∨
         (0 ≤ sle32 A 18 ∧ W * H ≤ s.params.pixCap ∧ L < 54 + H * stride W ∧ e = .truncatedInput ∧
          info = 54 + H * stride W))) →
      exec .decode s = .next { failedState s e (BitVec.ofNat 32 info) with valid := false })

/-- 40_codec.md R108, R109: ENCODE writes the header, each row's pixels in on-disk order and zero padding, sets
OUT_LEN, leaves every byte from need on, and writes no other state. -/
def Obligations.EncodeWritesFrame : Prop :=
  ∀ (s : State) (W H P S need : Nat), W = s.width.toNat → H = s.height.toNat → P = s.padding.toNat →
    S = 3 * W + P → need = 54 + H * S → s.params.wf = true → s.valid = true → need ≤ s.params.outCap →
    ∃ t, exec .encode s = .next t ∧ t = doneState { s with outMem := t.outMem, outLen := t.outLen } ∧
      t.outLen.toNat = need ∧ (∀ i, i < 54 → t.outByte i = s.hdrByte i) ∧
      (∀ r c, r < H → c < W → t.outByte (54 + r * S + 3 * c) = (s.pixel r c).b ∧
        t.outByte (54 + r * S + 3 * c + 1) = (s.pixel r c).g ∧
        t.outByte (54 + r * S + 3 * c + 2) = (s.pixel r c).r) ∧
      (∀ r p, r < H → p < P → t.outByte (54 + r * S + 3 * W + p) = 0#8) ∧
      ∀ a, need ≤ a → t.outByte a = s.outByte a

/-- 40_codec.md R110: an ENCODE whose output does not fit writes no byte, sets OUT_LEN to 0 and raises IO_ERROR with
the length it needs. -/
def Obligations.EncodeOverflowFails : Prop :=
  ∀ (s : State) (need : Nat), need = 54 + s.height.toNat * (3 * s.width.toNat + s.padding.toNat) →
    s.valid = true → s.params.outCap < need →
    exec .encode s = .next { failedState s .ioError (BitVec.ofNat 32 need) with outLen := 0#32 }

/-- 41_grayscale.md R116: each pixel becomes the rounded mean of its own channels, in the latched mode; nothing else
changes but the completion fields. -/
def Obligations.GrayscaleAveragesChannels : Prop :=
  ∀ s : State, s.valid = true →
    ∃ t, exec .grayscale s = .next t ∧ t = doneState { s with pix := t.pix } ∧
      t.pix.length = s.height.toNat * s.width.toNat ∧
      ∀ (r c : Nat) (p : Pixel) (a : Byte), r < s.height.toNat → c < s.width.toNat → p = s.pixel r c →
        a = BitVec.ofNat 8 (min (roundDiv (p.b.toNat + p.g.toNat + p.r.toNat) 3 s.pend.rnd) 255) →
        t.pixel r c = { b := a, g := a, r := a }

/-- 42_reflect.md R122: each row is mirrored, whole pixels moving; nothing else changes but the completion fields. -/
def Obligations.ReflectMirrorsRows : Prop :=
  ∀ s : State, s.valid = true →
    ∃ t, exec .reflect s = .next t ∧ t = doneState { s with pix := t.pix } ∧
      t.pix.length = s.height.toNat * s.width.toNat ∧
      ∀ r c, r < s.height.toNat → c < s.width.toNat → t.pixel r c = s.pixel r (s.width.toNat - 1 - c)

/-- 43_blur.md R128, R129: each channel becomes the rounded mean of that channel of the frame before the command over
the window clipped to the frame, divided by the number of pixels in it; nothing else changes but the completion
fields. -/
def Obligations.BlurAveragesClippedWindow : Prop :=
  ∀ s : State, s.valid = true →
    ∃ t, exec .blur s = .next t ∧ t = doneState { s with pix := t.pix } ∧
      t.pix.length = s.height.toNat * s.width.toNat ∧
      ∀ (r c r0 r1 c0 c1 n : Nat) (mean : (Pixel → Byte) → Byte), r < s.height.toNat → c < s.width.toNat →
        r0 = max r 1 - 1 → r1 = min (r + 1) (s.height.toNat - 1) →
        c0 = max c 1 - 1 → c1 = min (c + 1) (s.width.toNat - 1) →
        n = (r1 - r0 + 1) * (c1 - c0 + 1) →
        (∀ k, mean k = BitVec.ofNat 8 (min (roundDiv
          (∑ i ∈ Finset.Icc r0 r1, ∑ j ∈ Finset.Icc c0 c1, (k (s.pixel i j)).toNat) n s.pend.rnd) 255)) →
        t.pixel r c = { b := mean Pixel.b, g := mean Pixel.g, r := mean Pixel.r }

/-- 44_sepia.md R138, R139: the colour matrix in thousandths, rounded in the latched mode and capped at 255, all three
outputs from the pixel's original channels; nothing else changes but the completion fields. -/
def Obligations.SepiaMixesChannels : Prop :=
  ∀ s : State, s.valid = true →
    ∃ t, exec .sepia s = .next t ∧ t = doneState { s with pix := t.pix } ∧
      t.pix.length = s.height.toNat * s.width.toNat ∧
      ∀ (r c b g x : Nat), r < s.height.toNat → c < s.width.toNat → b = (s.pixel r c).b.toNat →
        g = (s.pixel r c).g.toNat → x = (s.pixel r c).r.toNat →
        (t.pixel r c).b = BitVec.ofNat 8 (min (roundDiv (272 * x + 534 * g + 131 * b) 1000 s.pend.rnd) 255) ∧
        (t.pixel r c).g = BitVec.ofNat 8 (min (roundDiv (349 * x + 686 * g + 168 * b) 1000 s.pend.rnd) 255) ∧
        (t.pixel r c).r = BitVec.ofNat 8 (min (roundDiv (393 * x + 769 * g + 189 * b) 1000 s.pend.rnd) 255)

/-! ### Frames of the commands -/

/-- 10_state.md R43, 41_grayscale.md R118, 42_reflect.md R124, 43_blur.md R134, 44_sepia.md R143: what the four
filters leave unchanged, whether they succeed or fail. -/
def Obligations.FiltersFrame : Prop :=
  ∀ (i : Instr) (s t : State), (i = .grayscale ∨ i = .reflect ∨ i = .blur ∨ i = .sepia) → exec i s = .next t →
    t.params = s.params ∧ t.rnd = s.rnd ∧ t.irqEn = s.irqEn ∧ t.valid = s.valid ∧ t.ovr = s.ovr ∧
    t.lastOp = s.lastOp ∧ t.inLen = s.inLen ∧ t.outLen = s.outLen ∧ t.width = s.width ∧ t.height = s.height ∧
    t.padding = s.padding ∧ t.hdr = s.hdr ∧ t.pend = s.pend ∧ (∀ a, t.inByte a = s.inByte a) ∧
    ∀ a, t.outByte a = s.outByte a

/-- 40_codec.md R101, R102: what DECODE leaves unchanged, whether it succeeds or fails; a failing one leaves the
frame too. -/
def Obligations.DecodeFrame : Prop :=
  ∀ s t : State, exec .decode s = .next t →
    t.params = s.params ∧ t.rnd = s.rnd ∧ t.irqEn = s.irqEn ∧ t.ovr = s.ovr ∧ t.lastOp = s.lastOp ∧
    t.inLen = s.inLen ∧ t.outLen = s.outLen ∧ t.pend = s.pend ∧ (∀ a, t.inByte a = s.inByte a) ∧
    (∀ a, t.outByte a = s.outByte a) ∧
    (t.valid = false → t.hdr = s.hdr ∧ t.width = s.width ∧ t.height = s.height ∧ t.padding = s.padding ∧
      t.pix = s.pix)

/-- 40_codec.md R109 to R111: what ENCODE leaves unchanged, whether it succeeds or fails. The bytes it stores to are
the addresses below `frameBytes`, and those only when a frame is held and fits. -/
def Obligations.EncodeFrame : Prop :=
  ∀ s t : State, exec .encode s = .next t →
    t.params = s.params ∧ t.rnd = s.rnd ∧ t.irqEn = s.irqEn ∧ t.valid = s.valid ∧ t.ovr = s.ovr ∧
    t.lastOp = s.lastOp ∧ t.inLen = s.inLen ∧ t.width = s.width ∧ t.height = s.height ∧ t.padding = s.padding ∧
    t.hdr = s.hdr ∧ t.pix = s.pix ∧ t.pend = s.pend ∧ (∀ a, t.inByte a = s.inByte a) ∧
    ∀ a, ¬(s.valid = true ∧ s.frameBytes ≤ s.params.outCap ∧ a < s.frameBytes) → t.outByte a = s.outByte a

/-! ### Resets -/

/-- 70_reset_and_hazards.md R167, 10_state.md R51: a hardware reset may come in any state and leaves every register
at the value the spec states. The new contents of the memories, of PIX and of PEND are left open. -/
def Obligations.HardwareResetValues : Prop :=
  ∀ (s : State) (rest : List Turn), s.schedule = .hardwareReset :: rest →
    ∃ t, step s = .next t ∧ t.schedule = rest ∧ t.params = s.params ∧ t.rnd = .halfUp ∧ t.irqEn = false ∧
      t.busy = false ∧ t.done = false ∧ t.error = false ∧ t.valid = false ∧ t.ovr = false ∧ t.lastOp = 0#8 ∧
      t.errCode = .none ∧ t.inLen = 0#32 ∧ t.outLen = 0#32 ∧ t.width = 0#32 ∧ t.height = 0#32 ∧
      t.padding = 0#2 ∧ t.errInfo = 0#32 ∧ (∀ i, t.hdrByte i = 0#8) ∧ t.irq = false

/-- 10_state.md R27, 70_reset_and_hazards.md R170, R171: a CTRL write with bit 31 set is a soft reset in the step of
the write, BUSY or not; it leaves every register at the reset value and keeps IN_MEM and OUT_MEM, but for the output
range of an ENCODE in flight. -/
def Obligations.SoftResetValues : Prop :=
  ∀ (s : State) (v : Word) (rest : List Turn), s.schedule = .host (.csrWrite 4 0x004#12 v) :: rest →
    v.getLsbD 31 = true →
    ∃ t, step s = .next t ∧ t.schedule = rest ∧ t.params = s.params ∧ t.rnd = .halfUp ∧ t.irqEn = false ∧
      t.busy = false ∧ t.done = false ∧ t.error = false ∧ t.valid = false ∧ t.ovr = false ∧ t.lastOp = 0#8 ∧
      t.errCode = .none ∧ t.inLen = 0#32 ∧ t.outLen = 0#32 ∧ t.width = 0#32 ∧ t.height = 0#32 ∧
      t.padding = 0#2 ∧ t.errInfo = 0#32 ∧ (∀ i, t.hdrByte i = 0#8) ∧ t.irq = false ∧
      t.csrRead 4 0x004#12 = 0#32 ∧ (∀ a, t.inByte a = s.inByte a) ∧
      ∀ a, ¬(s.busy = true ∧ s.pend.word = 0x00000065#32 ∧ a < s.frameBytes) → t.outByte a = s.outByte a

/-! ### Rules of the whole machine -/

/-- 10_state.md R34 to R36, R41 to R43: only a successful DECODE or a reset changes HDR, WIDTH, HEIGHT or PADDING, and
only a successful command other than ENCODE, or a reset, changes PIX. -/
def Obligations.FrameChangesOnlyByCommandsOrReset : Prop :=
  ∀ s t : State, step s = .next t →
    (t.hdr ≠ s.hdr ∨ t.width ≠ s.width ∨ t.height ≠ s.height ∨ t.padding ≠ s.padding →
      (executesNow s 0x00000064#32 ∧ t.valid = true ∧ t.done = true) ∨ resetsNow s) ∧
    (t.pix ≠ s.pix →
      (∃ w, executesNow s w ∧ w ≠ 0x00000065#32 ∧ t.valid = true ∧ t.done = true) ∨ resetsNow s)

/-- 40_codec.md R101, R102, R111, 10_state.md R29: VALID rises only by a DECODE and falls only by a failing DECODE
or a reset. -/
def Obligations.ValidChangesOnlyByDecodeOrReset : Prop :=
  ∀ s t : State, step s = .next t → t.valid ≠ s.valid →
    (executesNow s 0x00000064#32 ∧ (t.valid = false → t.error = true)) ∨ (resetsNow s ∧ t.valid = false)

/-- 10_state.md R33, 20_memory.md R55: only an ENCODE or a reset changes OUT_LEN or a byte of OUT_MEM, the ENCODE
only below the length of the frame and only when it succeeds. -/
def Obligations.OutputChangesOnlyByEncodeOrReset : Prop :=
  ∀ s t : State, step s = .next t →
    (t.outLen ≠ s.outLen → executesNow s 0x00000065#32 ∨ resetsNow s) ∧
    ∀ a, t.outByte a ≠ s.outByte a →
      (executesNow s 0x00000065#32 ∧ a < s.frameBytes ∧ t.done = true) ∨ resetsNow s

/-- 20_memory.md R54, R63: only a host write that reaches the byte, or a hardware reset, changes a byte of IN_MEM. -/
def Obligations.InputChangesOnlyByHostWriteOrReset : Prop :=
  ∀ (s t : State) (a : Nat), step s = .next t → t.inByte a ≠ s.inByte a →
    (∃ (n : Size) (x : Nat) (v : Word) (rest : List Turn), s.schedule = .host (.inWrite n x v) :: rest ∧
      x ≤ a ∧ a < x + n.bytes ∧ a < s.params.inCap) ∨
    ∃ rest, s.schedule = .hardwareReset :: rest

/-- 10_state.md R51, 00_scope.md R7: the state after reset, with any legal parameters, meets the invariant. Its clauses
on the lists of written and raced bytes rest on log entries 2 and 17. -/
def Obligations.ResetMeetsInvariant : Prop :=
  ∀ p : Config.Params, p.wf = true → Inv { State.reset with params := p }

/-- Every step of every state that meets the invariant leads to a state that meets it: the rules that `Inv` and its parts
cite (Safety.lean). For a reset, the clauses on the lists of written and raced bytes rest on log entries 2 and 17. -/
def Obligations.StepKeepsInvariant : Prop := ∀ s t : State, Inv s → step s = .next t → Inv t

/-! ### Properties of the arithmetic and of whole pipelines -/

/-- 00_scope.md R16: the three rounding modes in terms of quotient and remainder. -/
def Obligations.RoundDivByQuotientAndRemainder : Prop :=
  ∀ a n : Nat, 1 ≤ n →
    roundDiv a n .halfUp = (2 * a + n) / (2 * n) ∧ roundDiv a n .trunc = a / n ∧
    (2 * (a % n) < n → roundDiv a n .halfEven = a / n ∧ roundDiv a n .halfUp = a / n) ∧
    (n < 2 * (a % n) → roundDiv a n .halfEven = a / n + 1 ∧ roundDiv a n .halfUp = a / n + 1) ∧
    (2 * (a % n) = n → roundDiv a n .halfEven = a / n + a / n % 2 ∧ roundDiv a n .halfUp = a / n + 1)

/-- 41_grayscale.md R117, 43_blur.md R131, 44_sepia.md R141: the saturation never changes a gray or a blurred value or
sepia's blue; under HALF_UP the other two sepia channels saturate exactly from 255500 on. -/
def Obligations.SaturationBounds : Prop :=
  (∀ (a n : Nat) (mode : RoundMode), 1 ≤ n → a ≤ 255 * n → roundDiv a n mode ≤ 255) ∧
  (∀ (b g x : Byte) (mode : RoundMode),
    roundDiv (272 * x.toNat + 534 * g.toNat + 131 * b.toNat) 1000 mode ≤ if mode = .trunc then 238 else 239) ∧
  ∀ N : Nat, 255 < roundDiv N 1000 .halfUp ↔ 255500 ≤ N

/-- 43_blur.md R130: the divisors of the windows of a frame of at least 2 rows and 2 columns, and of a frame one
pixel high or wide. -/
def Obligations.BlurDivisors : Prop :=
  ∀ h w r c : Nat, r < h → c < w →
    (windowSize h w r c = 1 ∨ windowSize h w r c = 2 ∨ windowSize h w r c = 3 ∨ windowSize h w r c = 4 ∨
      windowSize h w r c = 6 ∨ windowSize h w r c = 9) ∧
    (2 ≤ h → 2 ≤ w → (r = 0 ∨ r = h - 1) → (c = 0 ∨ c = w - 1) → windowSize h w r c = 4) ∧
    (2 ≤ h → 2 ≤ w → (r = 0 ∨ r = h - 1) → 0 < c → c < w - 1 → windowSize h w r c = 6) ∧
    (2 ≤ h → 2 ≤ w → 0 < r → r < h - 1 → (c = 0 ∨ c = w - 1) → windowSize h w r c = 6) ∧
    (0 < r → r < h - 1 → 0 < c → c < w - 1 → windowSize h w r c = 9) ∧
    (h = 1 → 2 ≤ w → windowSize h w r c = if c = 0 ∨ c = w - 1 then 2 else 3) ∧
    (w = 1 → 2 ≤ h → windowSize h w r c = if r = 0 ∨ r = h - 1 then 2 else 3) ∧
    (h = 1 → w = 1 → windowSize h w r c = 1)

/-- 00_scope.md R8: with PIX_CAP at most 2^28, the length of a held frame is at most 54 + 6 x PIX_CAP, below 2^31, so
OUT_LEN and ERR_INFO hold it exactly. -/
def Obligations.FrameLengthFitsRegisters : Prop :=
  ∀ s : State, Inv s → s.valid = true →
    s.frameBytes ≤ 54 + 6 * s.params.pixCap ∧ s.frameBytes < 2 ^ 31 ∧
    ∃ t, exec .encode s = .next t ∧
      ((t.done = true ∧ t.outLen.toNat = s.frameBytes) ∨ (t.error = true ∧ t.errInfo.toNat = s.frameBytes))

/-- 41_grayscale.md R119: GRAYSCALE twice equals GRAYSCALE once, whatever the two modes. -/
def Obligations.GrayscaleIdempotent : Prop :=
  ∀ (s : State) (mode : RoundMode), s.valid = true →
    ∃ t u, exec .grayscale s = .next t ∧ exec .grayscale { t with pend := { t.pend with rnd := mode } } = .next u ∧
      u.pix = t.pix

/-- 42_reflect.md R125: REFLECT twice returns the original frame exactly. -/
def Obligations.ReflectInvolution : Prop :=
  ∀ s : State, Inv s → s.valid = true →
    ∃ t u, exec .reflect s = .next t ∧ exec .reflect t = .next u ∧ u.pix = s.pix

/-- 43_blur.md R135: a uniform frame is a fixed point of BLUR in every mode. -/
def Obligations.BlurKeepsUniformFrame : Prop :=
  ∀ (s : State) (p : Pixel), s.valid = true →
    (∀ r c, r < s.height.toNat → c < s.width.toNat → s.pixel r c = p) →
    ∃ t, exec .blur s = .next t ∧ ∀ r c, r < s.height.toNat → c < s.width.toNat → t.pixel r c = p

/-- 40_codec.md R113: DECODE then ENCODE gives the input back below need, at every byte except the padding bytes,
which become 0; so the round trip is the identity exactly when the input's padding is zero. -/
def Obligations.DecodeEncodeRoundTrip : Prop :=
  ∀ (s t : State) (W : Nat), exec .decode s = .next t → t.valid = true → W = t.width.toNat →
    t.frameBytes ≤ t.params.outCap →
    ∃ u, exec .encode t = .next u ∧ u.done = true ∧ (W = 0 ∨ t.height.toNat = 0 → t.frameBytes = 54) ∧
      (∀ a, a < t.frameBytes → u.outByte a =
        if 54 ≤ a ∧ 3 * W ≤ (a - 54) % stride W then 0#8 else s.decodeByte a) ∧
      ((∀ a, a < t.frameBytes → u.outByte a = s.decodeByte a) ↔
        ∀ a, 54 ≤ a → a < t.frameBytes → 3 * W ≤ (a - 54) % stride W → s.decodeByte a = 0#8)

/-- 40_codec.md R100, R103: what DECODE stores depends on the header and the pixel bytes alone. Two machines whose
inputs agree there, and differ in padding bytes or in bytes from need on, end with the same frame, the same registers
and the same report. -/
def Obligations.DecodeIgnoresPaddingAndTail : Prop :=
  ∀ (s : State) (m q : Memory) (t : State) (W H : Nat), t = { s with inMem := m, raced := q } →
    W = (sle32 s.decodeByte 18).toNat → H = (sle32 s.decodeByte 22).natAbs →
    (∀ a, a < 54 → t.decodeByte a = s.decodeByte a) →
    (∀ a, 54 ≤ a → a < 54 + H * stride W → (a - 54) % stride W < 3 * W → t.decodeByte a = s.decodeByte a) →
    ∃ u, exec .decode s = .next u ∧ exec .decode t = .next { u with inMem := m }

/-- 30_encoding.md R89, R90: `run M` from an idle engine ends, in the order with any number of STATUS reads before
Execute (log entry 21), with the command completed, its OPCODE in LAST_OP and exactly one of DONE and ERROR. The host
has read the STATUS of the running command that many times and then the final one. -/
def Obligations.RunStatementCompletes : Prop :=
  ∀ (s : State) (i : Instr) (busyReads : Nat), s.busy = false →
    ∃ t, runCommand i busyReads s = .next { machine := t, program := [] } ∧ t.busy = false ∧ t.schedule = s.schedule ∧
      t.lastOp = opcode i ∧ t.done = !t.error ∧
      t.reads = t.csrRead 4 0x008#12 ::
        (List.replicate busyReads ((s.accept (encode i)).csrRead 4 0x008#12) ++ s.reads)

/-- 30_encoding.md R93, 42_reflect.md R122, 40_codec.md R113 (the source's end-to-end example, 95_test_vectors.md
L1-7, for every frame): `filter REFLECT` on an acceptable input that fits OUT_MEM gives the input's header, each row's
pixels in reverse order and zero padding, in the order with any numbers of STATUS reads before the three Executes (log
entry 21). -/
def Obligations.FilterReflectEndToEnd : Prop :=
  ∀ (s : State) (W H S d k e : Nat), s.busy = false → s.params.wf = true →
    Acceptable s.inByte s.inLen.toNat s.params.pixCap → W = (sle32 s.inByte 18).toNat →
    H = (sle32 s.inByte 22).natAbs → S = stride W → 54 + H * S ≤ s.params.outCap →
    ∃ t, runFilter .reflect d k e s = .next { machine := t, program := [] } ∧ t.done = true ∧ t.error = false ∧
      t.outLen.toNat = 54 + H * S ∧ (∀ a, a < 54 → t.outByte a = s.inByte a) ∧
      (∀ r c k, r < H → c < W → k < 3 →
        t.outByte (54 + r * S + 3 * c + k) = s.inByte (54 + r * S + 3 * (W - 1 - c) + k)) ∧
      (∀ r p, r < H → p < pad W → t.outByte (54 + r * S + 3 * W + p) = 0#8) ∧
      ∀ a, 54 + H * S ≤ a → t.outByte a = s.outByte a

/-- 30_encoding.md R93: `filter` stops at the first failed completion. Where its DECODE fails, it ends as `run DECODE`
does, in the orders of log entry 21. No statement follows it here, so this holds whatever the stop ends (log entry 23). -/
def Obligations.FilterStopsAtFailedDecode : Prop :=
  ∀ (f : Filter) (s t : State) (d k e : Nat), s.busy = false →
    runCommand .decode d s = .next { machine := t, program := [] } → t.error = true →
    runFilter f d k e s = .next { machine := t, program := [] }
end

