-- ==== Sys2Proof/Laws/Memory.lean ====
section
/-! SUPPORT. What the memory operations do: read after write, filling, and the canonical form they keep. -/

namespace Sys2Proof.Machine

/-! ### Read after write -/

theorem byteAt?_put (m : Memory) (a b : Nat) (v : Byte) :
    Memory.byteAt? (Memory.put m a v) b = if b = a then some v else Memory.byteAt? m b := by
  induction m with
  | nil => simp [Memory.put, Memory.byteAt?]
  | cons cell rest ih =>
    obtain ⟨x, c⟩ := cell
    by_cases h1 : a < x
    · simp only [Memory.put, h1, if_true, Memory.byteAt?]
    · by_cases h2 : a = x
      · subst h2
        simp only [Memory.put, Nat.lt_irrefl, if_false, if_true, Memory.byteAt?]
        split_ifs <;> rfl
      · simp only [Memory.put, h1, h2, if_false, Memory.byteAt?, ih]
        split_ifs <;> first | rfl | omega

@[simp] theorem byteAt?_put_same (m : Memory) (a : Nat) (v : Byte) :
    Memory.byteAt? (Memory.put m a v) a = some v := by simp [byteAt?_put]

theorem byteAt?_put_other (m : Memory) {a b : Nat} (v : Byte) (h : b ≠ a) :
    Memory.byteAt? (Memory.put m a v) b = Memory.byteAt? m b := by simp [byteAt?_put, h]

theorem byteAt?_fill (m : Memory) (f : Nat → Byte) (n b : Nat) :
    Memory.byteAt? (Memory.fill m f n) b = if b < n then some (f b) else Memory.byteAt? m b := by
  induction n with
  | zero => simp [Memory.fill]
  | succ n ih =>
    simp only [Memory.fill, byteAt?_put, ih]
    split_ifs <;> first | rfl | omega | simp_all

/-! ### The canonical form -/

theorem risingFrom_put (m : Memory) (low a : Nat) (v : Byte) (h : Memory.risingFrom low m = true) (ha : low ≤ a) :
    Memory.risingFrom low (Memory.put m a v) = true := by
  induction m generalizing low with
  | nil => simp [Memory.put, Memory.risingFrom, ha]
  | cons cell rest ih =>
    obtain ⟨x, c⟩ := cell
    simp only [Memory.risingFrom, Bool.and_eq_true, decide_eq_true_eq] at h
    unfold Memory.put
    split_ifs with h1 h2
    · simp only [Memory.risingFrom, Bool.and_eq_true, decide_eq_true_eq]; exact ⟨ha, h1, h.2⟩
    · subst h2; simp [Memory.risingFrom, h.1, h.2]
    · simp only [Memory.risingFrom, Bool.and_eq_true, decide_eq_true_eq]; exact ⟨h.1, ih _ h.2 (by omega)⟩

theorem all_below_put (m : Memory) (cap a : Nat) (v : Byte)
    (h : (m.all fun cell => decide (cell.1 < cap)) = true) (ha : a < cap) :
    ((Memory.put m a v).all fun cell => decide (cell.1 < cap)) = true := by
  induction m with
  | nil => simp [Memory.put, ha]
  | cons cell rest ih =>
    obtain ⟨x, c⟩ := cell
    rw [List.all_cons, Bool.and_eq_true] at h
    unfold Memory.put
    split_ifs
    · rw [List.all_cons, List.all_cons, h.1, h.2]; simpa using ha
    · rw [List.all_cons, h.2]; simpa using ha
    · rw [List.all_cons, h.1, ih h.2]; rfl

/-- A write within the capacity keeps the canonical form. -/
theorem wf_put {cap : Nat} {m : Memory} (a : Nat) (v : Byte) (h : Memory.wf cap m = true) (ha : a < cap) :
    Memory.wf cap (Memory.put m a v) = true := by
  simp only [Memory.wf, Bool.and_eq_true] at h ⊢
  exact ⟨risingFrom_put m 0 a v h.1 (Nat.zero_le _), all_below_put m cap a v h.2 ha⟩

/-- Filling within the capacity keeps the canonical form. -/
theorem wf_fill {cap : Nat} {m : Memory} (f : Nat → Byte) (n : Nat) (h : Memory.wf cap m = true) (hn : n ≤ cap) :
    Memory.wf cap (Memory.fill m f n) = true := by
  induction n with
  | zero => exact h
  | succ n ih => exact wf_put n (f n) (ih (by omega)) (by omega)

@[simp] theorem wf_nil (cap : Nat) : Memory.wf cap [] = true := rfl

theorem byteAt?_eq_none_of_below (m : Memory) (low a : Nat) (h : Memory.risingFrom low m = true) (ha : a < low) :
    Memory.byteAt? m a = none := by
  induction m generalizing low with
  | nil => rfl
  | cons cell rest ih =>
    obtain ⟨x, c⟩ := cell
    simp only [Memory.risingFrom, Bool.and_eq_true, decide_eq_true_eq] at h
    simp only [Memory.byteAt?]
    rw [if_neg (by omega)]
    exact ih _ h.2 (by omega)

/-- Two memories in canonical form that list the same byte at every address are equal data. -/
theorem rising_ext (m n : Memory) (low : Nat) (hm : Memory.risingFrom low m = true)
    (hn : Memory.risingFrom low n = true) (h : ∀ a, Memory.byteAt? m a = Memory.byteAt? n a) : m = n := by
  induction m generalizing n low with
  | nil =>
    cases n with
    | nil => rfl
    | cons cell rest => simpa [Memory.byteAt?] using h cell.1
  | cons cell rest ih =>
    obtain ⟨x, c⟩ := cell
    cases n with
    | nil => simpa [Memory.byteAt?] using h x
    | cons cell' rest' =>
      obtain ⟨y, d⟩ := cell'
      simp only [Memory.risingFrom, Bool.and_eq_true, decide_eq_true_eq] at hm hn
      have hxy : x = y := by
        rcases Nat.lt_trichotomy x y with hlt | heq | hgt
        · have := h x
          simp [Memory.byteAt?, Nat.ne_of_lt hlt, byteAt?_eq_none_of_below rest' _ x hn.2 (by omega)] at this
        · exact heq
        · have := h y
          simp [Memory.byteAt?, Nat.ne_of_lt hgt, byteAt?_eq_none_of_below rest _ y hm.2 (by omega)] at this
      subst hxy
      have hcd : c = d := by simpa [Memory.byteAt?] using h x
      subst hcd
      rw [ih rest' _ hm.2 hn.2 fun a => ?_]
      by_cases ha : a = x
      · subst ha
        rw [byteAt?_eq_none_of_below rest _ a hm.2 (by omega), byteAt?_eq_none_of_below rest' _ a hn.2 (by omega)]
      · simpa [Memory.byteAt?, ha] using h a

/-! ### Little-endian values -/

theorem littleEndian_lt (f : Nat → Byte) (n : Nat) : littleEndian f n < 2 ^ (8 * n) := by
  induction n with
  | zero => simp [littleEndian]
  | succ n ih =>
    have hb := (f n).isLt
    have : 2 ^ (8 * n) * (f n).toNat ≤ 2 ^ (8 * n) * 255 := Nat.mul_le_mul_left _ (by omega)
    simp only [littleEndian]
    rw [show 8 * (n + 1) = 8 * n + 8 by ring, Nat.pow_add]
    omega

/-- Byte k of a little-endian value of n bytes is `f k`, and 0 from n on (00_scope.md R13). -/
theorem byteOf_littleEndian (f : Nat → Byte) (n k : Nat) (hn : n ≤ 4) (hk : k < 4) :
    byteOf (BitVec.ofNat 32 (littleEndian f n)) k = if k < n then f k else 0#8 := by
  apply BitVec.eq_of_toNat_eq
  simp only [byteOf, BitVec.extractLsb'_toNat, BitVec.toNat_ofNat, Nat.shiftRight_eq_div_pow]
  have h0 := (f 0).isLt
  have h1 := (f 1).isLt
  have h2 := (f 2).isLt
  have h3 := (f 3).isLt
  have hn' : n = 0 ∨ n = 1 ∨ n = 2 ∨ n = 3 ∨ n = 4 := by omega
  have hk' : k = 0 ∨ k = 1 ∨ k = 2 ∨ k = 3 := by omega
  rcases hn' with rfl | rfl | rfl | rfl | rfl <;> rcases hk' with rfl | rfl | rfl | rfl <;>
    simp [littleEndian] <;> omega

theorem le16_eq_littleEndian (A : Nat → Byte) (o : Nat) : le16 A o = littleEndian (fun k => A (o + k)) 2 := by
  simp [le16, littleEndian]

theorem le32_eq_littleEndian (A : Nat → Byte) (o : Nat) : le32 A o = littleEndian (fun k => A (o + k)) 4 := by
  simp [le32, littleEndian]

theorem le32_lt (A : Nat → Byte) (o : Nat) : le32 A o < 2 ^ 32 := by
  have h0 := (A o).isLt
  have h1 := (A (o + 1)).isLt
  have h2 := (A (o + 2)).isLt
  have h3 := (A (o + 3)).isLt
  simp only [le32]
  omega

theorem sle32_range (A : Nat → Byte) (o : Nat) : -2 ^ 31 ≤ sle32 A o ∧ sle32 A o < 2 ^ 31 := by
  have := le32_lt A o
  simp only [sle32]
  split_ifs <;> omega

end Sys2Proof.Machine
end

