-- ==== Sys2Proof/Laws/State.lean ====
section
/-! SUPPORT. One lemma per field per named update of State: what the update leaves in the field. True by `rfl`. -/

namespace Sys2Proof.Machine

variable (s : State)

/-! ### complete -/

@[simp] theorem State.complete_params : (s.complete).params = s.params := rfl
@[simp] theorem State.complete_rnd : (s.complete).rnd = s.rnd := rfl
@[simp] theorem State.complete_irqEn : (s.complete).irqEn = s.irqEn := rfl
@[simp] theorem State.complete_busy : (s.complete).busy = false := rfl
@[simp] theorem State.complete_done : (s.complete).done = true := rfl
@[simp] theorem State.complete_error : (s.complete).error = s.error := rfl
@[simp] theorem State.complete_valid : (s.complete).valid = s.valid := rfl
@[simp] theorem State.complete_ovr : (s.complete).ovr = s.ovr := rfl
@[simp] theorem State.complete_lastOp : (s.complete).lastOp = s.lastOp := rfl
@[simp] theorem State.complete_errCode : (s.complete).errCode = s.errCode := rfl
@[simp] theorem State.complete_inLen : (s.complete).inLen = s.inLen := rfl
@[simp] theorem State.complete_outLen : (s.complete).outLen = s.outLen := rfl
@[simp] theorem State.complete_width : (s.complete).width = s.width := rfl
@[simp] theorem State.complete_height : (s.complete).height = s.height := rfl
@[simp] theorem State.complete_padding : (s.complete).padding = s.padding := rfl
@[simp] theorem State.complete_errInfo : (s.complete).errInfo = s.errInfo := rfl
@[simp] theorem State.complete_hdr : (s.complete).hdr = s.hdr := rfl
@[simp] theorem State.complete_pix : (s.complete).pix = s.pix := rfl
@[simp] theorem State.complete_pend : (s.complete).pend = s.pend := rfl
@[simp] theorem State.complete_inMem : (s.complete).inMem = s.inMem := rfl
@[simp] theorem State.complete_outMem : (s.complete).outMem = s.outMem := rfl
@[simp] theorem State.complete_raced : (s.complete).raced = [] := rfl
@[simp] theorem State.complete_epoch : (s.complete).epoch = s.epoch := rfl
@[simp] theorem State.complete_draws : (s.complete).draws = s.draws := rfl
@[simp] theorem State.complete_schedule : (s.complete).schedule = s.schedule := rfl
@[simp] theorem State.complete_reads : (s.complete).reads = s.reads := rfl

/-! ### accept -/

@[simp] theorem State.accept_params (w : Word) : (s.accept w).params = s.params := rfl
@[simp] theorem State.accept_rnd (w : Word) : (s.accept w).rnd = s.rnd := rfl
@[simp] theorem State.accept_irqEn (w : Word) : (s.accept w).irqEn = s.irqEn := rfl
@[simp] theorem State.accept_busy (w : Word) : (s.accept w).busy = true := rfl
@[simp] theorem State.accept_done (w : Word) : (s.accept w).done = false := rfl
@[simp] theorem State.accept_error (w : Word) : (s.accept w).error = false := rfl
@[simp] theorem State.accept_valid (w : Word) : (s.accept w).valid = s.valid := rfl
@[simp] theorem State.accept_ovr (w : Word) : (s.accept w).ovr = s.ovr := rfl
@[simp] theorem State.accept_lastOp (w : Word) : (s.accept w).lastOp = opcodeOf w := rfl
@[simp] theorem State.accept_errCode (w : Word) : (s.accept w).errCode = .none := rfl
@[simp] theorem State.accept_inLen (w : Word) : (s.accept w).inLen = s.inLen := rfl
@[simp] theorem State.accept_outLen (w : Word) : (s.accept w).outLen = s.outLen := rfl
@[simp] theorem State.accept_width (w : Word) : (s.accept w).width = s.width := rfl
@[simp] theorem State.accept_height (w : Word) : (s.accept w).height = s.height := rfl
@[simp] theorem State.accept_padding (w : Word) : (s.accept w).padding = s.padding := rfl
@[simp] theorem State.accept_errInfo (w : Word) : (s.accept w).errInfo = 0#32 := rfl
@[simp] theorem State.accept_hdr (w : Word) : (s.accept w).hdr = s.hdr := rfl
@[simp] theorem State.accept_pix (w : Word) : (s.accept w).pix = s.pix := rfl
@[simp] theorem State.accept_pend (w : Word) : (s.accept w).pend = { word := w, rnd := s.rnd, inLen := s.inLen } := rfl
@[simp] theorem State.accept_inMem (w : Word) : (s.accept w).inMem = s.inMem := rfl
@[simp] theorem State.accept_outMem (w : Word) : (s.accept w).outMem = s.outMem := rfl
@[simp] theorem State.accept_raced (w : Word) : (s.accept w).raced = [] := rfl
@[simp] theorem State.accept_epoch (w : Word) : (s.accept w).epoch = s.epoch := rfl
@[simp] theorem State.accept_draws (w : Word) : (s.accept w).draws = s.draws := rfl
@[simp] theorem State.accept_schedule (w : Word) : (s.accept w).schedule = s.schedule := rfl
@[simp] theorem State.accept_reads (w : Word) : (s.accept w).reads = s.reads := rfl

/-! ### raise -/

@[simp] theorem State.raise_params (cmd : Option Instr) (e : ErrCode) (info : Nat) : (s.raise cmd e info).params = s.params := rfl
@[simp] theorem State.raise_rnd (cmd : Option Instr) (e : ErrCode) (info : Nat) : (s.raise cmd e info).rnd = s.rnd := rfl
@[simp] theorem State.raise_irqEn (cmd : Option Instr) (e : ErrCode) (info : Nat) : (s.raise cmd e info).irqEn = s.irqEn := rfl
@[simp] theorem State.raise_busy (cmd : Option Instr) (e : ErrCode) (info : Nat) : (s.raise cmd e info).busy = false := rfl
@[simp] theorem State.raise_done (cmd : Option Instr) (e : ErrCode) (info : Nat) : (s.raise cmd e info).done = s.done := rfl
@[simp] theorem State.raise_error (cmd : Option Instr) (e : ErrCode) (info : Nat) : (s.raise cmd e info).error = true := rfl
@[simp] theorem State.raise_valid (cmd : Option Instr) (e : ErrCode) (info : Nat) : (s.raise cmd e info).valid = if cmd = some .decode then false else s.valid := rfl
@[simp] theorem State.raise_ovr (cmd : Option Instr) (e : ErrCode) (info : Nat) : (s.raise cmd e info).ovr = s.ovr := rfl
@[simp] theorem State.raise_lastOp (cmd : Option Instr) (e : ErrCode) (info : Nat) : (s.raise cmd e info).lastOp = s.lastOp := rfl
@[simp] theorem State.raise_errCode (cmd : Option Instr) (e : ErrCode) (info : Nat) : (s.raise cmd e info).errCode = e := rfl
@[simp] theorem State.raise_inLen (cmd : Option Instr) (e : ErrCode) (info : Nat) : (s.raise cmd e info).inLen = s.inLen := rfl
@[simp] theorem State.raise_outLen (cmd : Option Instr) (e : ErrCode) (info : Nat) : (s.raise cmd e info).outLen = if cmd = some .encode then 0#32 else s.outLen := rfl
@[simp] theorem State.raise_width (cmd : Option Instr) (e : ErrCode) (info : Nat) : (s.raise cmd e info).width = s.width := rfl
@[simp] theorem State.raise_height (cmd : Option Instr) (e : ErrCode) (info : Nat) : (s.raise cmd e info).height = s.height := rfl
@[simp] theorem State.raise_padding (cmd : Option Instr) (e : ErrCode) (info : Nat) : (s.raise cmd e info).padding = s.padding := rfl
@[simp] theorem State.raise_errInfo (cmd : Option Instr) (e : ErrCode) (info : Nat) : (s.raise cmd e info).errInfo = BitVec.ofNat 32 info := rfl
@[simp] theorem State.raise_hdr (cmd : Option Instr) (e : ErrCode) (info : Nat) : (s.raise cmd e info).hdr = s.hdr := rfl
@[simp] theorem State.raise_pix (cmd : Option Instr) (e : ErrCode) (info : Nat) : (s.raise cmd e info).pix = s.pix := rfl
@[simp] theorem State.raise_pend (cmd : Option Instr) (e : ErrCode) (info : Nat) : (s.raise cmd e info).pend = s.pend := rfl
@[simp] theorem State.raise_inMem (cmd : Option Instr) (e : ErrCode) (info : Nat) : (s.raise cmd e info).inMem = s.inMem := rfl
@[simp] theorem State.raise_outMem (cmd : Option Instr) (e : ErrCode) (info : Nat) : (s.raise cmd e info).outMem = s.outMem := rfl
@[simp] theorem State.raise_raced (cmd : Option Instr) (e : ErrCode) (info : Nat) : (s.raise cmd e info).raced = [] := rfl
@[simp] theorem State.raise_epoch (cmd : Option Instr) (e : ErrCode) (info : Nat) : (s.raise cmd e info).epoch = s.epoch := rfl
@[simp] theorem State.raise_draws (cmd : Option Instr) (e : ErrCode) (info : Nat) : (s.raise cmd e info).draws = s.draws := rfl
@[simp] theorem State.raise_schedule (cmd : Option Instr) (e : ErrCode) (info : Nat) : (s.raise cmd e info).schedule = s.schedule := rfl
@[simp] theorem State.raise_reads (cmd : Option Instr) (e : ErrCode) (info : Nat) : (s.raise cmd e info).reads = s.reads := rfl

/-! ### ackStatus -/

@[simp] theorem State.ackStatus_params (v : Word) : (s.ackStatus v).params = s.params := rfl
@[simp] theorem State.ackStatus_rnd (v : Word) : (s.ackStatus v).rnd = s.rnd := rfl
@[simp] theorem State.ackStatus_irqEn (v : Word) : (s.ackStatus v).irqEn = s.irqEn := rfl
@[simp] theorem State.ackStatus_busy (v : Word) : (s.ackStatus v).busy = s.busy := rfl
@[simp] theorem State.ackStatus_done (v : Word) : (s.ackStatus v).done = (s.done && !v.getLsbD 1) := rfl
@[simp] theorem State.ackStatus_error (v : Word) : (s.ackStatus v).error = (s.error && !v.getLsbD 2) := rfl
@[simp] theorem State.ackStatus_valid (v : Word) : (s.ackStatus v).valid = s.valid := rfl
@[simp] theorem State.ackStatus_ovr (v : Word) : (s.ackStatus v).ovr = (s.ovr && !v.getLsbD 4) := rfl
@[simp] theorem State.ackStatus_lastOp (v : Word) : (s.ackStatus v).lastOp = s.lastOp := rfl
@[simp] theorem State.ackStatus_errCode (v : Word) : (s.ackStatus v).errCode = s.errCode := rfl
@[simp] theorem State.ackStatus_inLen (v : Word) : (s.ackStatus v).inLen = s.inLen := rfl
@[simp] theorem State.ackStatus_outLen (v : Word) : (s.ackStatus v).outLen = s.outLen := rfl
@[simp] theorem State.ackStatus_width (v : Word) : (s.ackStatus v).width = s.width := rfl
@[simp] theorem State.ackStatus_height (v : Word) : (s.ackStatus v).height = s.height := rfl
@[simp] theorem State.ackStatus_padding (v : Word) : (s.ackStatus v).padding = s.padding := rfl
@[simp] theorem State.ackStatus_errInfo (v : Word) : (s.ackStatus v).errInfo = s.errInfo := rfl
@[simp] theorem State.ackStatus_hdr (v : Word) : (s.ackStatus v).hdr = s.hdr := rfl
@[simp] theorem State.ackStatus_pix (v : Word) : (s.ackStatus v).pix = s.pix := rfl
@[simp] theorem State.ackStatus_pend (v : Word) : (s.ackStatus v).pend = s.pend := rfl
@[simp] theorem State.ackStatus_inMem (v : Word) : (s.ackStatus v).inMem = s.inMem := rfl
@[simp] theorem State.ackStatus_outMem (v : Word) : (s.ackStatus v).outMem = s.outMem := rfl
@[simp] theorem State.ackStatus_raced (v : Word) : (s.ackStatus v).raced = s.raced := rfl
@[simp] theorem State.ackStatus_epoch (v : Word) : (s.ackStatus v).epoch = s.epoch := rfl
@[simp] theorem State.ackStatus_draws (v : Word) : (s.ackStatus v).draws = s.draws := rfl
@[simp] theorem State.ackStatus_schedule (v : Word) : (s.ackStatus v).schedule = s.schedule := rfl
@[simp] theorem State.ackStatus_reads (v : Word) : (s.ackStatus v).reads = s.reads := rfl

/-! ### replacePixels -/

@[simp] theorem State.replacePixels_params (f : Nat → Nat → Pixel) : (s.replacePixels f).params = s.params := rfl
@[simp] theorem State.replacePixels_rnd (f : Nat → Nat → Pixel) : (s.replacePixels f).rnd = s.rnd := rfl
@[simp] theorem State.replacePixels_irqEn (f : Nat → Nat → Pixel) : (s.replacePixels f).irqEn = s.irqEn := rfl
@[simp] theorem State.replacePixels_busy (f : Nat → Nat → Pixel) : (s.replacePixels f).busy = s.busy := rfl
@[simp] theorem State.replacePixels_done (f : Nat → Nat → Pixel) : (s.replacePixels f).done = s.done := rfl
@[simp] theorem State.replacePixels_error (f : Nat → Nat → Pixel) : (s.replacePixels f).error = s.error := rfl
@[simp] theorem State.replacePixels_valid (f : Nat → Nat → Pixel) : (s.replacePixels f).valid = s.valid := rfl
@[simp] theorem State.replacePixels_ovr (f : Nat → Nat → Pixel) : (s.replacePixels f).ovr = s.ovr := rfl
@[simp] theorem State.replacePixels_lastOp (f : Nat → Nat → Pixel) : (s.replacePixels f).lastOp = s.lastOp := rfl
@[simp] theorem State.replacePixels_errCode (f : Nat → Nat → Pixel) : (s.replacePixels f).errCode = s.errCode := rfl
@[simp] theorem State.replacePixels_inLen (f : Nat → Nat → Pixel) : (s.replacePixels f).inLen = s.inLen := rfl
@[simp] theorem State.replacePixels_outLen (f : Nat → Nat → Pixel) : (s.replacePixels f).outLen = s.outLen := rfl
@[simp] theorem State.replacePixels_width (f : Nat → Nat → Pixel) : (s.replacePixels f).width = s.width := rfl
@[simp] theorem State.replacePixels_height (f : Nat → Nat → Pixel) : (s.replacePixels f).height = s.height := rfl
@[simp] theorem State.replacePixels_padding (f : Nat → Nat → Pixel) : (s.replacePixels f).padding = s.padding := rfl
@[simp] theorem State.replacePixels_errInfo (f : Nat → Nat → Pixel) : (s.replacePixels f).errInfo = s.errInfo := rfl
@[simp] theorem State.replacePixels_hdr (f : Nat → Nat → Pixel) : (s.replacePixels f).hdr = s.hdr := rfl
@[simp] theorem State.replacePixels_pix (f : Nat → Nat → Pixel) : (s.replacePixels f).pix = pixelGrid s.height.toNat s.width.toNat f := rfl
@[simp] theorem State.replacePixels_pend (f : Nat → Nat → Pixel) : (s.replacePixels f).pend = s.pend := rfl
@[simp] theorem State.replacePixels_inMem (f : Nat → Nat → Pixel) : (s.replacePixels f).inMem = s.inMem := rfl
@[simp] theorem State.replacePixels_outMem (f : Nat → Nat → Pixel) : (s.replacePixels f).outMem = s.outMem := rfl
@[simp] theorem State.replacePixels_raced (f : Nat → Nat → Pixel) : (s.replacePixels f).raced = s.raced := rfl
@[simp] theorem State.replacePixels_epoch (f : Nat → Nat → Pixel) : (s.replacePixels f).epoch = s.epoch := rfl
@[simp] theorem State.replacePixels_draws (f : Nat → Nat → Pixel) : (s.replacePixels f).draws = s.draws := rfl
@[simp] theorem State.replacePixels_schedule (f : Nat → Nat → Pixel) : (s.replacePixels f).schedule = s.schedule := rfl
@[simp] theorem State.replacePixels_reads (f : Nat → Nat → Pixel) : (s.replacePixels f).reads = s.reads := rfl

/-! ### answer -/

@[simp] theorem State.answer_params (v : Word) : (s.answer v).params = s.params := rfl
@[simp] theorem State.answer_rnd (v : Word) : (s.answer v).rnd = s.rnd := rfl
@[simp] theorem State.answer_irqEn (v : Word) : (s.answer v).irqEn = s.irqEn := rfl
@[simp] theorem State.answer_busy (v : Word) : (s.answer v).busy = s.busy := rfl
@[simp] theorem State.answer_done (v : Word) : (s.answer v).done = s.done := rfl
@[simp] theorem State.answer_error (v : Word) : (s.answer v).error = s.error := rfl
@[simp] theorem State.answer_valid (v : Word) : (s.answer v).valid = s.valid := rfl
@[simp] theorem State.answer_ovr (v : Word) : (s.answer v).ovr = s.ovr := rfl
@[simp] theorem State.answer_lastOp (v : Word) : (s.answer v).lastOp = s.lastOp := rfl
@[simp] theorem State.answer_errCode (v : Word) : (s.answer v).errCode = s.errCode := rfl
@[simp] theorem State.answer_inLen (v : Word) : (s.answer v).inLen = s.inLen := rfl
@[simp] theorem State.answer_outLen (v : Word) : (s.answer v).outLen = s.outLen := rfl
@[simp] theorem State.answer_width (v : Word) : (s.answer v).width = s.width := rfl
@[simp] theorem State.answer_height (v : Word) : (s.answer v).height = s.height := rfl
@[simp] theorem State.answer_padding (v : Word) : (s.answer v).padding = s.padding := rfl
@[simp] theorem State.answer_errInfo (v : Word) : (s.answer v).errInfo = s.errInfo := rfl
@[simp] theorem State.answer_hdr (v : Word) : (s.answer v).hdr = s.hdr := rfl
@[simp] theorem State.answer_pix (v : Word) : (s.answer v).pix = s.pix := rfl
@[simp] theorem State.answer_pend (v : Word) : (s.answer v).pend = s.pend := rfl
@[simp] theorem State.answer_inMem (v : Word) : (s.answer v).inMem = s.inMem := rfl
@[simp] theorem State.answer_outMem (v : Word) : (s.answer v).outMem = s.outMem := rfl
@[simp] theorem State.answer_raced (v : Word) : (s.answer v).raced = s.raced := rfl
@[simp] theorem State.answer_epoch (v : Word) : (s.answer v).epoch = s.epoch := rfl
@[simp] theorem State.answer_draws (v : Word) : (s.answer v).draws = s.draws := rfl
@[simp] theorem State.answer_schedule (v : Word) : (s.answer v).schedule = s.schedule := rfl
@[simp] theorem State.answer_reads (v : Word) : (s.answer v).reads = v :: s.reads := rfl

/-! ### writeInLen -/

@[simp] theorem State.writeInLen_params (v : Word) : (s.writeInLen v).params = s.params := rfl
@[simp] theorem State.writeInLen_rnd (v : Word) : (s.writeInLen v).rnd = s.rnd := rfl
@[simp] theorem State.writeInLen_irqEn (v : Word) : (s.writeInLen v).irqEn = s.irqEn := rfl
@[simp] theorem State.writeInLen_busy (v : Word) : (s.writeInLen v).busy = s.busy := rfl
@[simp] theorem State.writeInLen_done (v : Word) : (s.writeInLen v).done = s.done := rfl
@[simp] theorem State.writeInLen_error (v : Word) : (s.writeInLen v).error = s.error := rfl
@[simp] theorem State.writeInLen_valid (v : Word) : (s.writeInLen v).valid = s.valid := rfl
@[simp] theorem State.writeInLen_ovr (v : Word) : (s.writeInLen v).ovr = s.ovr := rfl
@[simp] theorem State.writeInLen_lastOp (v : Word) : (s.writeInLen v).lastOp = s.lastOp := rfl
@[simp] theorem State.writeInLen_errCode (v : Word) : (s.writeInLen v).errCode = s.errCode := rfl
@[simp] theorem State.writeInLen_inLen (v : Word) : (s.writeInLen v).inLen = BitVec.ofNat 32 (min v.toNat s.params.inCap) := rfl
@[simp] theorem State.writeInLen_outLen (v : Word) : (s.writeInLen v).outLen = s.outLen := rfl
@[simp] theorem State.writeInLen_width (v : Word) : (s.writeInLen v).width = s.width := rfl
@[simp] theorem State.writeInLen_height (v : Word) : (s.writeInLen v).height = s.height := rfl
@[simp] theorem State.writeInLen_padding (v : Word) : (s.writeInLen v).padding = s.padding := rfl
@[simp] theorem State.writeInLen_errInfo (v : Word) : (s.writeInLen v).errInfo = s.errInfo := rfl
@[simp] theorem State.writeInLen_hdr (v : Word) : (s.writeInLen v).hdr = s.hdr := rfl
@[simp] theorem State.writeInLen_pix (v : Word) : (s.writeInLen v).pix = s.pix := rfl
@[simp] theorem State.writeInLen_pend (v : Word) : (s.writeInLen v).pend = s.pend := rfl
@[simp] theorem State.writeInLen_inMem (v : Word) : (s.writeInLen v).inMem = s.inMem := rfl
@[simp] theorem State.writeInLen_outMem (v : Word) : (s.writeInLen v).outMem = s.outMem := rfl
@[simp] theorem State.writeInLen_raced (v : Word) : (s.writeInLen v).raced = s.raced := rfl
@[simp] theorem State.writeInLen_epoch (v : Word) : (s.writeInLen v).epoch = s.epoch := rfl
@[simp] theorem State.writeInLen_draws (v : Word) : (s.writeInLen v).draws = s.draws := rfl
@[simp] theorem State.writeInLen_schedule (v : Word) : (s.writeInLen v).schedule = s.schedule := rfl
@[simp] theorem State.writeInLen_reads (v : Word) : (s.writeInLen v).reads = s.reads := rfl

/-! ### softReset -/

@[simp] theorem State.softReset_params : (s.softReset).params = s.params := rfl
@[simp] theorem State.softReset_rnd : (s.softReset).rnd = .halfUp := rfl
@[simp] theorem State.softReset_irqEn : (s.softReset).irqEn = false := rfl
@[simp] theorem State.softReset_busy : (s.softReset).busy = false := rfl
@[simp] theorem State.softReset_done : (s.softReset).done = false := rfl
@[simp] theorem State.softReset_error : (s.softReset).error = false := rfl
@[simp] theorem State.softReset_valid : (s.softReset).valid = false := rfl
@[simp] theorem State.softReset_ovr : (s.softReset).ovr = false := rfl
@[simp] theorem State.softReset_lastOp : (s.softReset).lastOp = 0#8 := rfl
@[simp] theorem State.softReset_errCode : (s.softReset).errCode = .none := rfl
@[simp] theorem State.softReset_inLen : (s.softReset).inLen = 0#32 := rfl
@[simp] theorem State.softReset_outLen : (s.softReset).outLen = 0#32 := rfl
@[simp] theorem State.softReset_width : (s.softReset).width = 0#32 := rfl
@[simp] theorem State.softReset_height : (s.softReset).height = 0#32 := rfl
@[simp] theorem State.softReset_padding : (s.softReset).padding = 0#2 := rfl
@[simp] theorem State.softReset_errInfo : (s.softReset).errInfo = 0#32 := rfl
@[simp] theorem State.softReset_hdr : (s.softReset).hdr = Vector.replicate 54 0#8 := rfl
@[simp] theorem State.softReset_pix : (s.softReset).pix = [] := rfl
@[simp] theorem State.softReset_pend : (s.softReset).pend = { word := 0#32, rnd := .halfUp, inLen := 0#32 } := rfl
@[simp] theorem State.softReset_inMem : (s.softReset).inMem = s.inMem := rfl
@[simp] theorem State.softReset_outMem : (s.softReset).outMem = s.abandonedOut := rfl
@[simp] theorem State.softReset_raced : (s.softReset).raced = [] := rfl
@[simp] theorem State.softReset_epoch : (s.softReset).epoch = s.epoch := rfl
@[simp] theorem State.softReset_draws : (s.softReset).draws = s.draws + 1 := rfl
@[simp] theorem State.softReset_schedule : (s.softReset).schedule = s.schedule := rfl
@[simp] theorem State.softReset_reads : (s.softReset).reads = s.reads := rfl

/-! ### hardwareReset -/

@[simp] theorem State.hardwareReset_params : (s.hardwareReset).params = s.params := rfl
@[simp] theorem State.hardwareReset_rnd : (s.hardwareReset).rnd = .halfUp := rfl
@[simp] theorem State.hardwareReset_irqEn : (s.hardwareReset).irqEn = false := rfl
@[simp] theorem State.hardwareReset_busy : (s.hardwareReset).busy = false := rfl
@[simp] theorem State.hardwareReset_done : (s.hardwareReset).done = false := rfl
@[simp] theorem State.hardwareReset_error : (s.hardwareReset).error = false := rfl
@[simp] theorem State.hardwareReset_valid : (s.hardwareReset).valid = false := rfl
@[simp] theorem State.hardwareReset_ovr : (s.hardwareReset).ovr = false := rfl
@[simp] theorem State.hardwareReset_lastOp : (s.hardwareReset).lastOp = 0#8 := rfl
@[simp] theorem State.hardwareReset_errCode : (s.hardwareReset).errCode = .none := rfl
@[simp] theorem State.hardwareReset_inLen : (s.hardwareReset).inLen = 0#32 := rfl
@[simp] theorem State.hardwareReset_outLen : (s.hardwareReset).outLen = 0#32 := rfl
@[simp] theorem State.hardwareReset_width : (s.hardwareReset).width = 0#32 := rfl
@[simp] theorem State.hardwareReset_height : (s.hardwareReset).height = 0#32 := rfl
@[simp] theorem State.hardwareReset_padding : (s.hardwareReset).padding = 0#2 := rfl
@[simp] theorem State.hardwareReset_errInfo : (s.hardwareReset).errInfo = 0#32 := rfl
@[simp] theorem State.hardwareReset_hdr : (s.hardwareReset).hdr = Vector.replicate 54 0#8 := rfl
@[simp] theorem State.hardwareReset_pix : (s.hardwareReset).pix = [] := rfl
@[simp] theorem State.hardwareReset_pend : (s.hardwareReset).pend = { word := 0#32, rnd := .halfUp, inLen := 0#32 } := rfl
@[simp] theorem State.hardwareReset_inMem : (s.hardwareReset).inMem = [] := rfl
@[simp] theorem State.hardwareReset_outMem : (s.hardwareReset).outMem = [] := rfl
@[simp] theorem State.hardwareReset_raced : (s.hardwareReset).raced = [] := rfl
@[simp] theorem State.hardwareReset_epoch : (s.hardwareReset).epoch = s.epoch + 1 := rfl
@[simp] theorem State.hardwareReset_draws : (s.hardwareReset).draws = s.draws := rfl
@[simp] theorem State.hardwareReset_schedule : (s.hardwareReset).schedule = s.schedule := rfl
@[simp] theorem State.hardwareReset_reads : (s.hardwareReset).reads = s.reads := rfl

/-! ### commitFrame -/

@[simp] theorem commitFrame_params : (commitFrame s).params = s.params := rfl
@[simp] theorem commitFrame_rnd : (commitFrame s).rnd = s.rnd := rfl
@[simp] theorem commitFrame_irqEn : (commitFrame s).irqEn = s.irqEn := rfl
@[simp] theorem commitFrame_busy : (commitFrame s).busy = s.busy := rfl
@[simp] theorem commitFrame_done : (commitFrame s).done = s.done := rfl
@[simp] theorem commitFrame_error : (commitFrame s).error = s.error := rfl
@[simp] theorem commitFrame_valid : (commitFrame s).valid = true := rfl
@[simp] theorem commitFrame_ovr : (commitFrame s).ovr = s.ovr := rfl
@[simp] theorem commitFrame_lastOp : (commitFrame s).lastOp = s.lastOp := rfl
@[simp] theorem commitFrame_errCode : (commitFrame s).errCode = s.errCode := rfl
@[simp] theorem commitFrame_inLen : (commitFrame s).inLen = s.inLen := rfl
@[simp] theorem commitFrame_outLen : (commitFrame s).outLen = s.outLen := rfl
@[simp] theorem commitFrame_errInfo : (commitFrame s).errInfo = s.errInfo := rfl
@[simp] theorem commitFrame_hdr : (commitFrame s).hdr = Vector.ofFn fun i => s.decodeByte i.val := rfl
@[simp] theorem commitFrame_pix : (commitFrame s).pix = pixelGrid s.inH s.inW (inputPixel s) := rfl
@[simp] theorem commitFrame_pend : (commitFrame s).pend = s.pend := rfl
@[simp] theorem commitFrame_inMem : (commitFrame s).inMem = s.inMem := rfl
@[simp] theorem commitFrame_outMem : (commitFrame s).outMem = s.outMem := rfl
@[simp] theorem commitFrame_raced : (commitFrame s).raced = s.raced := rfl
@[simp] theorem commitFrame_epoch : (commitFrame s).epoch = s.epoch := rfl
@[simp] theorem commitFrame_draws : (commitFrame s).draws = s.draws := rfl
@[simp] theorem commitFrame_schedule : (commitFrame s).schedule = s.schedule := rfl
@[simp] theorem commitFrame_reads : (commitFrame s).reads = s.reads := rfl

/-! ### storeFrame -/

@[simp] theorem storeFrame_params : (storeFrame s).params = s.params := rfl
@[simp] theorem storeFrame_rnd : (storeFrame s).rnd = s.rnd := rfl
@[simp] theorem storeFrame_irqEn : (storeFrame s).irqEn = s.irqEn := rfl
@[simp] theorem storeFrame_busy : (storeFrame s).busy = s.busy := rfl
@[simp] theorem storeFrame_done : (storeFrame s).done = s.done := rfl
@[simp] theorem storeFrame_error : (storeFrame s).error = s.error := rfl
@[simp] theorem storeFrame_valid : (storeFrame s).valid = s.valid := rfl
@[simp] theorem storeFrame_ovr : (storeFrame s).ovr = s.ovr := rfl
@[simp] theorem storeFrame_lastOp : (storeFrame s).lastOp = s.lastOp := rfl
@[simp] theorem storeFrame_errCode : (storeFrame s).errCode = s.errCode := rfl
@[simp] theorem storeFrame_inLen : (storeFrame s).inLen = s.inLen := rfl
@[simp] theorem storeFrame_outLen : (storeFrame s).outLen = BitVec.ofNat 32 s.frameBytes := rfl
@[simp] theorem storeFrame_width : (storeFrame s).width = s.width := rfl
@[simp] theorem storeFrame_height : (storeFrame s).height = s.height := rfl
@[simp] theorem storeFrame_padding : (storeFrame s).padding = s.padding := rfl
@[simp] theorem storeFrame_errInfo : (storeFrame s).errInfo = s.errInfo := rfl
@[simp] theorem storeFrame_hdr : (storeFrame s).hdr = s.hdr := rfl
@[simp] theorem storeFrame_pix : (storeFrame s).pix = s.pix := rfl
@[simp] theorem storeFrame_pend : (storeFrame s).pend = s.pend := rfl
@[simp] theorem storeFrame_inMem : (storeFrame s).inMem = s.inMem := rfl
@[simp] theorem storeFrame_outMem : (storeFrame s).outMem = Memory.fill s.outMem s.frameByte s.frameBytes := rfl
@[simp] theorem storeFrame_raced : (storeFrame s).raced = s.raced := rfl
@[simp] theorem storeFrame_epoch : (storeFrame s).epoch = s.epoch := rfl
@[simp] theorem storeFrame_draws : (storeFrame s).draws = s.draws := rfl
@[simp] theorem storeFrame_schedule : (storeFrame s).schedule = s.schedule := rfl
@[simp] theorem storeFrame_reads : (storeFrame s).reads = s.reads := rfl

end Sys2Proof.Machine
end

