-- ==== Sys2Proof/Laws/Ops.lean ====
section
/-! SUPPORT. One spec lemma for each shared operation: rounding, row geometry, the frame store, the memories of a
state, the commands' common checks, the host's byte accesses. -/

namespace Sys2Proof.Machine

/-! ### Arithmetic -/

theorem roundDiv_le {a n b : Nat} (mode : RoundMode) (hn : 0 < n) (h : a ≤ b * n) : roundDiv a n mode ≤ b := by
  have hq : a / n ≤ b := Nat.div_le_of_le_mul (by rw [Nat.mul_comm]; exact h)
  have hm : n * (a / n) + a % n = a := Nat.div_add_mod a n
  have hr : a - a / n * n = a % n := by rw [Nat.mul_comm]; omega
  have hlt : 0 < a % n → a / n < b := fun hp => by
    rcases Nat.lt_or_ge (a / n) b with hl | hg
    · exact hl
    · have : n * b ≤ n * (a / n) := Nat.mul_le_mul_left n hg
      rw [Nat.mul_comm b n] at h
      omega
  cases mode with
  | halfUp =>
    simp only [roundDiv]
    rw [Nat.div_le_iff_le_mul_add_pred (by omega)]
    have : 2 * n * b = 2 * (b * n) := by ring
    omega
  | trunc => exact hq
  | halfEven =>
    simp only [roundDiv, hr]
    split_ifs with h1 h2
    · exact hq
    · exact hlt (by omega)
    · have := hlt (by omega)
      omega

theorem channel_toNat (a n : Nat) (mode : RoundMode) : (channel a n mode).toNat = min (roundDiv a n mode) 255 := by
  simp only [channel, sat8, BitVec.toNat_ofNat]
  omega

theorem roundDiv_mul (v n : Nat) (mode : RoundMode) (hn : 0 < n) : roundDiv (n * v) n mode = v := by
  have hq : n * v / n = v := Nat.mul_div_cancel_left v hn
  cases mode with
  | halfUp =>
    simp only [roundDiv]
    rw [show 2 * (n * v) + n = n + 2 * n * v by ring, Nat.add_mul_div_left _ _ (by omega),
      Nat.div_eq_of_lt (by omega), Nat.zero_add]
  | trunc => exact hq
  | halfEven =>
    simp only [roundDiv, hq]
    rw [Nat.mul_comm v n, Nat.sub_self, if_pos (by omega)]

theorem pad_lt (w : Nat) : pad w < 4 := Nat.mod_lt _ (by omega)

/-- The two formulas for the stride agree (00_scope.md R18). -/
theorem stride_eq_ceil (w : Nat) : stride w = (3 * w + 3) / 4 * 4 := by
  simp only [stride, pad]
  omega

/-! ### The frame store -/

@[simp] theorem pixelGrid_length (h w : Nat) (f : Nat → Nat → Pixel) : (pixelGrid h w f).length = h * w := by
  simp [pixelGrid]

theorem cell_lt {h w r c : Nat} (hr : r < h) (hc : c < w) : r * w + c < h * w := by
  have : (r + 1) * w ≤ h * w := Nat.mul_le_mul_right w hr
  rw [Nat.add_mul] at this
  omega

theorem pixelGrid_get (h w : Nat) (f : Nat → Nat → Pixel) {r c : Nat} (hr : r < h) (hc : c < w) :
    (pixelGrid h w f)[r * w + c]? = some (f r c) := by
  have hw : 0 < w := by omega
  rw [pixelGrid, List.getElem?_map, List.getElem?_range (cell_lt hr hc)]
  simp only [Option.map_some, Option.some.injEq]
  rw [Nat.mul_comm r w, Nat.mul_add_div hw, Nat.div_eq_of_lt hc, Nat.mul_add_mod, Nat.mod_eq_of_lt hc, Nat.add_zero]

theorem pixelGrid_congr {h w : Nat} {f g : Nat → Nat → Pixel} (e : ∀ r c, r < h → c < w → f r c = g r c) :
    pixelGrid h w f = pixelGrid h w g := by
  apply List.map_congr_left
  intro k hk
  have hk' : k < h * w := List.mem_range.mp hk
  have hw : 0 < w := by
    rcases Nat.eq_zero_or_pos w with h0 | h0
    · subst h0; simp at hk'
    · exact h0
  exact e _ _ (Nat.div_lt_of_lt_mul (by rw [Nat.mul_comm]; exact hk')) (Nat.mod_lt _ hw)

/-- A frame store is the grid of its own pixels. -/
theorem pixelGrid_pixel (s : State) (h : s.pix.length = s.height.toNat * s.width.toNat) :
    pixelGrid s.height.toNat s.width.toNat s.pixel = s.pix := by
  apply List.ext_getElem?
  intro k
  rw [pixelGrid, List.getElem?_map]
  rcases Nat.lt_or_ge k (s.height.toNat * s.width.toNat) with hk | hk
  · rw [List.getElem?_range hk]
    have he : k / s.width.toNat * s.width.toNat + k % s.width.toNat = k := by
      rw [Nat.mul_comm]; exact Nat.div_add_mod _ _
    simp only [Option.map_some, State.pixel, State.pixCell, he]
    rw [List.getElem?_eq_getElem (by omega)]
    rfl
  · rw [List.getElem?_eq_none (by simpa using hk), List.getElem?_eq_none (by omega)]
    rfl

/-- `replacePixels f` leaves `f r c` at every pixel of the frame. -/
theorem pixel_replacePixels (s : State) (f : Nat → Nat → Pixel) {r c : Nat} (hr : r < s.height.toNat)
    (hc : c < s.width.toNat) : (s.replacePixels f).pixel r c = f r c := by
  simp only [State.pixel, State.pixCell, State.replacePixels_pix, State.replacePixels_width]
  rw [pixelGrid_get _ _ _ hr hc, Option.getD_some]

/-- A pixel is read from WIDTH and PIX alone. -/
theorem pixel_congr {s t : State} (hw : t.width = s.width) (hp : t.pix = s.pix) (r c : Nat) :
    t.pixel r c = s.pixel r c := by simp only [State.pixel, State.pixCell, hw, hp]

theorem frameByte_header (s : State) {a : Nat} (h : a < 54) : s.frameByte a = s.hdrByte a := by
  simp [State.frameByte, h]

/-- The bytes of row r of a frame: pixels in on-disk order, then zero padding (30_encoding.md R85). -/
theorem frameByte_row (s : State) (r : Nat) {j : Nat} (h : j < s.rowBytes) :
    s.frameByte (54 + r * s.rowBytes + j) =
      if j < 3 * s.width.toNat then pixelByte (s.pixel r (j / 3)) (j % 3) else 0#8 := by
  have e : 54 + r * s.rowBytes + j - 54 = s.rowBytes * r + j := by rw [Nat.mul_comm]; omega
  simp only [State.frameByte, e]
  rw [if_neg (by omega), Nat.mul_add_div (by omega), Nat.div_eq_of_lt h, Nat.mul_add_mod, Nat.mod_eq_of_lt h,
    Nat.add_zero]

/-! ### Bytes of the memories of a state -/

theorem inByte_congr {s t : State} (hp : t.params = s.params) (he : t.epoch = s.epoch) (hm : t.inMem = s.inMem)
    (a : Nat) : t.inByte a = s.inByte a := by simp only [State.inByte, hp, he, hm]

theorem outByte_congr {s t : State} (hp : t.params = s.params) (he : t.epoch = s.epoch) (hm : t.outMem = s.outMem)
    (a : Nat) : t.outByte a = s.outByte a := by simp only [State.outByte, hp, he, hm]

theorem decodeByte_unraced {s : State} (h : s.raced = []) (a : Nat) : s.decodeByte a = s.inByte a := by
  simp [State.decodeByte, h, Memory.byteAt?]

/-- OUT_MEM filled from address 0: the new bytes below n, the former ones from n on. -/
theorem outByte_fill (s t : State) (f : Nat → Byte) (n : Nat) (hp : t.params = s.params) (he : t.epoch = s.epoch)
    (hm : t.outMem = Memory.fill s.outMem f n) (hn : n ≤ s.params.outCap) (a : Nat) :
    t.outByte a = if a < n then f a else s.outByte a := by
  simp only [State.outByte, hp, he, hm, byteAt?_fill]
  split_ifs <;> first | rfl | omega

/-- The bytes of OUT after a soft reset (70_reset_and_hazards.md R170, R171). -/
theorem outByte_softReset (s : State) (a : Nat) :
    s.softReset.outByte a =
      if s.busy = true ∧ s.pend.word = encode .encode ∧ a < s.frameBytes ∧ a < s.params.outCap then
        Config.abandonedByte s.draws a
      else s.outByte a := by
  by_cases hc : s.busy = true ∧ s.pend.word = encode .encode
  · have hm : s.softReset.outMem =
        Memory.fill s.outMem (Config.abandonedByte s.draws) (min s.frameBytes s.params.outCap) := by
      rw [State.softReset_outMem, State.abandonedOut, if_pos hc]
    rw [outByte_fill s s.softReset _ _ rfl rfl hm (Nat.min_le_right _ _)]
    simp only [Nat.lt_min, hc.1, hc.2, true_and]
  · rw [if_neg fun h => hc ⟨h.1, h.2.1⟩]
    refine outByte_congr (by simp) (by simp) ?_ a
    rw [State.softReset_outMem, State.abandonedOut, if_neg hc]

/-! ### The frame parser and encoder -/

theorem inW_lt (s : State) : s.inW < 2 ^ 31 := by
  have := (sle32_range s.decodeByte 18).2
  simp only [State.inW, State.inWidth]
  omega

theorem inH_le (s : State) : s.inH ≤ 2 ^ 31 := by
  have := sle32_range s.decodeByte 22
  simp only [State.inH, State.inHeight]
  omega

/-- What a commit leaves in the geometry registers, the header and the pixels (40_codec.md R102). -/
theorem commitFrame_width (s : State) : (commitFrame s).width.toNat = s.inW := by
  have := inW_lt s
  simp only [commitFrame, BitVec.toNat_ofNat]
  omega

theorem commitFrame_height (s : State) : (commitFrame s).height.toNat = s.inH := by
  have := inH_le s
  simp only [commitFrame, BitVec.toNat_ofNat]
  omega

theorem commitFrame_padding (s : State) : (commitFrame s).padding.toNat = pad s.inW := by
  have := pad_lt s.inW
  simp only [commitFrame, BitVec.toNat_ofNat]
  omega

theorem commitFrame_hdrByte (s : State) {i : Nat} (h : i < 54) : (commitFrame s).hdrByte i = s.decodeByte i := by
  simp [State.hdrByte, commitFrame, h]

theorem commitFrame_pixel (s : State) {r c : Nat} (hr : r < s.inH) (hc : c < s.inW) :
    (commitFrame s).pixel r c = inputPixel s r c := by
  have hp : (commitFrame s).pix = pixelGrid s.inH s.inW (inputPixel s) := rfl
  simp only [State.pixel, State.pixCell, commitFrame_width, hp]
  rw [pixelGrid_get _ _ _ hr hc, Option.getD_some]

/-- OUT_MEM after the output of an ENCODE that fits (40_codec.md R109). -/
theorem outByte_storeFrame (s : State) (h : s.frameBytes ≤ s.params.outCap) (a : Nat) :
    (storeFrame s).outByte a = if a < s.frameBytes then s.frameByte a else s.outByte a :=
  outByte_fill s (storeFrame s) s.frameByte s.frameBytes rfl rfl rfl h a

/-! ### The common checks of the commands -/

theorem withFrame_of_valid (cmd : Instr) (body : State → State) {s : State} (h : s.valid = true) :
    s.withFrame cmd body = body s := by simp [State.withFrame, h]

theorem withFrame_of_noFrame (cmd : Instr) (body : State → State) {s : State} (h : s.valid = false) :
    s.withFrame cmd body = s.raise (some cmd) .noFrame (opcodeOf s.pend.word).toNat := by simp [State.withFrame, h]

/-! ### Register writes -/

/-- A CTRL write without bit 31 (10_state.md R24 to R26). -/
theorem writeCtrl_of_noReset (s : State) {v : Word} (h : v.getLsbD 31 = false) :
    s.writeCtrl v = { s with rnd := rndWritten (v.extractLsb' 0 2) s.rnd, irqEn := v.getLsbD 2 } := by
  rw [State.writeCtrl, if_neg (by rw [h]; exact Bool.false_ne_true)]

/-- A CTRL write with bit 31 is a soft reset (10_state.md R27). -/
theorem writeCtrl_of_reset (s : State) {v : Word} (h : v.getLsbD 31 = true) : s.writeCtrl v = s.softReset := by
  rw [State.writeCtrl, if_pos h]

/-- The four writable registers at their offsets (10_state.md R22). -/
theorem csrWrite_ctrl (s : State) (v : Word) : s.csrWrite 4 0x004#12 v = s.writeCtrl v := rfl
theorem csrWrite_status (s : State) (v : Word) : s.csrWrite 4 0x008#12 v = s.ackStatus v := rfl
theorem csrWrite_cmd (s : State) (v : Word) : s.csrWrite 4 0x00C#12 v = s.issue v := rfl
theorem csrWrite_inLen (s : State) (v : Word) : s.csrWrite 4 0x010#12 v = s.writeInLen v := rfl

theorem writeInLen_toNat (s : State) (v : Word) : (s.writeInLen v).inLen.toNat = min v.toNat s.params.inCap := by
  have := v.isLt
  rw [State.writeInLen_inLen, BitVec.toNat_ofNat, Nat.mod_eq_of_lt (by omega)]

/-! ### The host's byte accesses -/

/-- A byte write to IN changes IN_MEM, and what a DECODE in flight sees, and nothing else. -/
theorem writeInByte_frame (s : State) (a : Nat) (b : Byte) :
    s.writeInByte a b = { s with
      inMem := (s.writeInByte a b).inMem, raced := (s.writeInByte a b).raced, draws := (s.writeInByte a b).draws } := by
  simp only [State.writeInByte]
  split_ifs <;> rfl

theorem inByte_writeInByte (s : State) (a : Nat) (b : Byte) (x : Nat) :
    (s.writeInByte a b).inByte x = if x = a ∧ a < s.params.inCap then b else s.inByte x := by
  simp only [State.writeInByte]
  split_ifs <;> simp_all [State.inByte, byteAt?_put]

/-- A byte write to IN leaves a DECODE in flight seeing the former value or the new one (20_memory.md R71). -/
theorem decodeByte_writeInByte (s : State) (a : Nat) (b : Byte) (x : Nat) (hd : s.decodeInFlight = true) :
    (s.writeInByte a b).decodeByte x = s.decodeByte x ∨
      (x = a ∧ a < s.params.inCap ∧ (s.writeInByte a b).decodeByte x = b) := by
  simp only [State.writeInByte, hd, if_true]
  by_cases ha : a < s.params.inCap
  · simp only [ha, if_true]
    by_cases hx : x = a
    · subst hx
      cases hr : Config.raceTakesNew s.draws
      · left; simp [State.decodeByte]
      · right; simp [State.decodeByte]
    · left
      simp [State.decodeByte, State.inByte, byteAt?_put, hx]
  · simp [ha]

/-- A write of n bytes to IN changes IN_MEM, and what a DECODE in flight sees, and nothing else. -/
theorem writeIn_frame (s : State) (a : Nat) (v : Word) (n : Nat) :
    s.writeIn a v n = { s with
      inMem := (s.writeIn a v n).inMem, raced := (s.writeIn a v n).raced, draws := (s.writeIn a v n).draws } := by
  induction n with
  | zero => rfl
  | succ n ih =>
    simp only [State.writeIn]
    rw [writeInByte_frame, ih]

@[simp] theorem writeIn_params (s : State) (a : Nat) (v : Word) (n : Nat) : (s.writeIn a v n).params = s.params := by
  rw [writeIn_frame]

@[simp] theorem writeIn_decodeInFlight (s : State) (a : Nat) (v : Word) (n : Nat) :
    (s.writeIn a v n).decodeInFlight = s.decodeInFlight := by
  rw [writeIn_frame]; rfl

/-- The bytes of IN after a write of n bytes at a (20_memory.md R59, R62). -/
theorem inByte_writeIn (s : State) (a : Nat) (v : Word) (n x : Nat) :
    (s.writeIn a v n).inByte x =
      if a ≤ x ∧ x < a + n ∧ x < s.params.inCap then byteOf v (x - a) else s.inByte x := by
  induction n with
  | zero => rw [if_neg (by omega)]; rfl
  | succ n ih =>
    simp only [State.writeIn, inByte_writeInByte, ih, writeIn_params]
    by_cases hx : x = a + n
    · subst hx
      by_cases hc : a + n < s.params.inCap
      · rw [if_pos ⟨rfl, hc⟩, if_pos (by omega)]; congr 1; omega
      · rw [if_neg (by omega), if_neg (by omega), if_neg (by omega)]
    · rw [if_neg (by omega)]
      by_cases h : a ≤ x ∧ x < a + n ∧ x < s.params.inCap
      · rw [if_pos h, if_pos (by omega)]
      · rw [if_neg h, if_neg (by omega)]

/-- The window of BLUR always holds its own centre, and lies in the frame (43_blur.md R128). -/
theorem window_bounds {n i : Nat} (h : i < n) :
    windowLow i ≤ i ∧ i ≤ windowHigh n i ∧ windowHigh n i < n ∧ 1 ≤ windowCount n i ∧ windowCount n i ≤ 3 := by
  simp only [windowLow, windowHigh, windowCount]
  omega

end Sys2Proof.Machine
end

