-- ==== Sys2Proof/Laws/Step.lean ====
section
/-! SUPPORT. What a turn and a step can do, said once. -/

namespace Sys2Proof.Machine

theorem step_of_idle_plan {s : State} (h : s.schedule = []) : step s = engineTurn s := by simp [step, h]

theorem step_of_turn {s : State} {t : Turn} {rest : List Turn} (h : s.schedule = t :: rest) :
    step s = takeTurn t { s with schedule := rest } := by simp [step, h]

/-- A register is found at its own offset, and only there (10_state.md R22). -/
theorem csrAt_offset (c : Csr) : csrAt (csrOffset c) = some c := by
  cases c with
  | hdr k => revert k; decide
  | _ => decide

theorem csrAt_some {offset : BitVec 12} {c : Csr} (h : csrAt offset = some c) : offset = csrOffset c := by
  have := List.find?_some h
  simpa using (beq_iff_eq.mp this).symm

/-- Every register lies at a multiple of 4 (10_state.md R22). -/
theorem csrOffset_aligned (c : Csr) : (csrOffset c).toNat % 4 = 0 := by
  cases c with
  | hdr k => revert k; decide
  | _ => decide

@[simp] theorem csrAccessed_offset (c : Csr) : csrAccessed 4 (csrOffset c) = some c := by
  simp [csrAccessed, csrOffset_aligned, csrAt_offset]

/-- What one command can do: the commit of DECODE, ENCODE's output, a filter's new pixels, or a failed completion. -/
theorem exec_cases {i : Instr} {s t : State} (h : exec i s = .next t) :
    (i = .decode ∧ decodeError s = none ∧ t = (commitFrame s).complete) ∨
    (i = .decode ∧ ∃ e info, decodeError s = some (e, info) ∧ t = s.raise (some .decode) e info) ∨
    (i ≠ .decode ∧ s.valid = false ∧ t = s.raise (some i) .noFrame (opcodeOf s.pend.word).toNat) ∨
    (i = .encode ∧ s.valid = true ∧ t = encodeFrame s) ∨
    (i ≠ .decode ∧ i ≠ .encode ∧ s.valid = true ∧ ∃ f, t = (s.replacePixels f).complete) := by
  cases i with
  | decode =>
    simp only [exec, execDecode, Host.Outcome.next.injEq] at h
    cases hd : decodeError s with
    | none => left; simp_all
    | some p => right; left; exact ⟨rfl, p.1, p.2, rfl, by rw [← h, hd]⟩
  | encode =>
    simp only [exec, execEncode, Host.Outcome.next.injEq] at h
    cases hv : s.valid <;> simp_all [State.withFrame]
  | grayscale =>
    simp only [exec, execGrayscale, Host.Outcome.next.injEq] at h
    cases hv : s.valid
    · simp_all [State.withFrame]
    · right; right; right; right
      exact ⟨by decide, by decide, rfl, _, by rw [← h, withFrame_of_valid _ _ hv]⟩
  | reflect =>
    simp only [exec, execReflect, Host.Outcome.next.injEq] at h
    cases hv : s.valid
    · simp_all [State.withFrame]
    · right; right; right; right
      exact ⟨by decide, by decide, rfl, _, by rw [← h, withFrame_of_valid _ _ hv]⟩
  | blur =>
    simp only [exec, execBlur, Host.Outcome.next.injEq] at h
    cases hv : s.valid
    · simp_all [State.withFrame]
    · right; right; right; right
      exact ⟨by decide, by decide, rfl, _, by rw [← h, withFrame_of_valid _ _ hv]⟩
  | sepia =>
    simp only [exec, execSepia, Host.Outcome.next.injEq] at h
    cases hv : s.valid
    · simp_all [State.withFrame]
    · right; right; right; right
      exact ⟨by decide, by decide, rfl, _, by rw [← h, withFrame_of_valid _ _ hv]⟩

/-- What every command leaves alone, and how it leaves the control state (60_exceptions.md R150, R151). -/
theorem exec_keeps {i : Instr} {s t : State} (h : exec i s = .next t) :
    t.busy = false ∧ t.raced = [] ∧ t.params = s.params ∧ t.rnd = s.rnd ∧ t.irqEn = s.irqEn ∧ t.ovr = s.ovr ∧
    t.lastOp = s.lastOp ∧ t.inLen = s.inLen ∧ t.pend = s.pend ∧ t.inMem = s.inMem ∧ t.epoch = s.epoch ∧
    t.draws = s.draws ∧ t.schedule = s.schedule ∧ t.reads = s.reads := by
  rcases exec_cases h with ⟨_, _, rfl⟩ | ⟨_, e, info, _, rfl⟩ | ⟨_, _, rfl⟩ | ⟨_, _, rfl⟩ | ⟨_, _, _, f, rfl⟩
  · simp
  · simp
  · simp
  · unfold encodeFrame; split <;> simp
  · simp

/-- When the engine moves, the step is its turn. -/
theorem step_of_engineMoves {s u : State} (h : engineMoves s u) : step s = engineTurn u := by
  rcases h with ⟨hs, rfl⟩ | ⟨rest, hs, rfl⟩
  · exact step_of_idle_plan hs
  · exact step_of_turn hs

/-- What one step can do, with its guards: the engine waits, executes the latched command or fails an illegal word;
or the host has its access; or the machine is reset. -/
theorem step_cases {s t : State} (h : step s = .next t) :
    (∃ u, engineMoves s u ∧
      ((s.busy = false ∧ t = u) ∨
       (s.busy = true ∧ ∃ i, decodeWord s.pend.word = .command i ∧ exec i u = .next t) ∨
       (s.busy = true ∧ (∃ why, decodeWord s.pend.word = .rejected why) ∧
         t = u.raise none .illegalCommand s.pend.word.toNat))) ∨
    (∃ x rest, s.schedule = .host x :: rest ∧ t = hostAccess x { s with schedule := rest }) ∨
    (∃ rest, s.schedule = .hardwareReset :: rest ∧ t = State.hardwareReset { s with schedule := rest }) := by
  have engine : ∀ u : State, engineTurn u = .next t →
      (u.busy = false ∧ t = u) ∨
      (u.busy = true ∧ ∃ i, decodeWord u.pend.word = .command i ∧ exec i u = .next t) ∨
      (u.busy = true ∧ (∃ why, decodeWord u.pend.word = .rejected why) ∧
        t = u.raise none .illegalCommand u.pend.word.toNat) := by
    intro u hu
    cases hb : u.busy with
    | false => left; simp_all [engineTurn]
    | true =>
      right
      simp only [engineTurn, hb, if_true, execute] at hu
      cases hd : decodeWord u.pend.word with
      | command i => left; simp_all
      | rejected why => right; simp_all
  cases hs : s.schedule with
  | nil =>
    rw [step_of_idle_plan hs] at h
    exact .inl ⟨s, .inl ⟨hs, rfl⟩, engine s h⟩
  | cons turn rest =>
    rw [step_of_turn hs] at h
    cases turn with
    | host x =>
      simp only [takeTurn, Host.Outcome.next.injEq] at h
      exact .inr (.inl ⟨x, rest, rfl, h.symm⟩)
    | engine => exact .inl ⟨{ s with schedule := rest }, .inr ⟨rest, hs, rfl⟩, engine _ h⟩
    | hardwareReset =>
      simp only [takeTurn, Host.Outcome.next.injEq] at h
      exact .inr (.inr ⟨rest, rfl, h.symm⟩)

/-- A host access other than a soft reset changes no frame state, no byte of OUT_MEM and no OUT_LEN. -/
theorem hostAccess_cases (x : HostAccess) (s : State) :
    ((hostAccess x s).hdr = s.hdr ∧ (hostAccess x s).width = s.width ∧ (hostAccess x s).height = s.height ∧
      (hostAccess x s).padding = s.padding ∧ (hostAccess x s).pix = s.pix ∧ (hostAccess x s).valid = s.valid ∧
      (hostAccess x s).outLen = s.outLen ∧ (hostAccess x s).outMem = s.outMem ∧ (hostAccess x s).epoch = s.epoch ∧
      (hostAccess x s).params = s.params) ∨
    ∃ v, x = .csrWrite 4 0x004#12 v ∧ v.getLsbD 31 = true ∧ hostAccess x s = s.softReset := by
  cases x with
  | csrRead b o => left; simp [hostAccess]
  | csrWrite b o v =>
    simp only [hostAccess, State.csrWrite]
    cases hc : csrAccessed b o with
    | none => simp
    | some c =>
      cases c with
      | ctrl =>
        simp only [State.csrStore]
        cases hv : v.getLsbD 31 with
        | true =>
          right
          unfold csrAccessed at hc
          split at hc
          · rename_i hb
            rw [hb.1, csrAt_some hc]
            exact ⟨v, rfl, hv, writeCtrl_of_reset s hv⟩
          · cases hc
        | false => left; rw [writeCtrl_of_noReset _ hv]; simp
      | cmd => left; simp only [State.csrStore, State.issue]; split <;> simp
      | _ => left; simp [State.csrStore]
  | inRead n a => left; simp [hostAccess]
  | inWrite n a v => left; simp only [hostAccess]; rw [writeIn_frame]; simp
  | outRead n a => left; simp only [hostAccess, State.spendDraws]; split <;> simp
  | outWrite n a v => left; simp [hostAccess]

end Sys2Proof.Machine
end

