-- ==== Sys2Proof/Laws/HostProgram.lean ====
section
/-! SUPPORT. What a move and an order of moves can do, said once. -/

namespace Sys2Proof.Machine

theorem statusWord_busy (s : State) : (statusWord s).getLsbD 0 = s.busy := by
  simp only [statusWord, BitVec.getLsbD_append]
  simp

theorem statusWord_error (s : State) : (statusWord s).getLsbD 2 = s.error := by
  simp only [statusWord, BitVec.getLsbD_append]
  simp

/-- Where no loop stands in the operations, their accesses are the encoding. -/
theorem opsAccesses_map_access (busyReads : List Nat) (xs : List HostAccess) :
    opsAccesses busyReads (xs.map HostOp.access) = xs := by
  induction xs with
  | nil => rfl
  | cons x xs ih => simp [opsAccesses, ih]

theorem move_host {s : State} {program : List HostOp} {x : HostAccess} (h : nextAccess program = some x) :
    Playing.move .host { machine := s, program := program } =
      .next { machine := hostAccess x s, program := opsAfter ((hostAccess x s).reads.headD 0#32) program } := by
  simp only [Playing.move, h, Playing.after]
  rw [step_of_turn (s := { s with schedule := .host x :: s.schedule }) rfl]
  rfl

theorem move_engine {s t : State} (program : List HostOp) (h : engineTurn s = .next t) :
    Playing.move .engine { machine := s, program := program } = .next { machine := t, program := program } := by
  simp only [Playing.move, Playing.after]
  rw [step_of_turn (s := { s with schedule := .engine :: s.schedule }) rfl]
  simp only [takeTurn, h]

theorem play_cons {m : Mover} {p q : Playing} (rest : List Mover) (h : p.move m = .next q) :
    play (m :: rest) p = play rest q := by simp [play, h]

theorem play_append {a b : List Mover} {p q : Playing} (h : play a p = .next q) : play (a ++ b) p = play b q := by
  induction a generalizing p with
  | nil => cases h; rfl
  | cons m a ih =>
    cases hm : p.move m with
    | next r => rw [play_cons a hm] at h; rw [List.cons_append, play_cons _ hm]; exact ih h
    | fault r => simp [play, hm] at h
    | refused r => simp [play, hm] at h

/-- With the program at its end and the engine idle, no order of moves changes anything. -/
theorem play_ended (order : List Mover) {s : State} (h : s.busy = false) :
    play order { machine := s, program := [] } = .next { machine := s, program := [] } := by
  induction order with
  | nil => rfl
  | cons m rest ih =>
    have hm : Playing.move m { machine := s, program := [] } = .next { machine := s, program := [] } := by
      cases m with
      | host => rfl
      | engine => exact move_engine [] (by simp [engineTurn, h])
    rw [play_cons rest hm, ih]

/-- A STATUS read while BUSY = 1 leaves the host in its loop. -/
theorem move_host_busy {s : State} (stopOnError : Bool) (rest : List HostOp) (h : s.busy = true) :
    Playing.move .host { machine := s, program := .waitIdle stopOnError :: rest } =
      .next { machine := s.answer (statusWord s), program := .waitIdle stopOnError :: rest } := by
  rw [move_host rfl]
  have hr : hostAccess (rdAccess .status) s = s.answer (statusWord s) := rfl
  simp [hr, opsAfter, statusWord_busy, h, -BitVec.getLsbD_eq_getElem]

/-- A STATUS read with BUSY = 0 ends the loop, and the whole program where the loop stops on an error (log entry 23). -/
theorem move_host_idle {s : State} (stopOnError : Bool) (rest : List HostOp) (h : s.busy = false) :
    Playing.move .host { machine := s, program := .waitIdle stopOnError :: rest } =
      .next { machine := s.answer (statusWord s), program := if stopOnError && s.error then [] else rest } := by
  rw [move_host rfl]
  have hr : hostAccess (rdAccess .status) s = s.answer (statusWord s) := rfl
  simp [hr, opsAfter, statusWord_busy, statusWord_error, h, -BitVec.getLsbD_eq_getElem]

end Sys2Proof.Machine
end

