-- ==== Sys2Proof/Laws/PerInstr.lean ====
section
/-! SUPPORT. A fact about every command as syntax, one lemma per constructor. -/

namespace Sys2Proof.Laws.WordShape

/-- The command's word has the command's OPCODE in bits 7:0 and zero in bits 31:8, and the decoder's map gives the
command back for that OPCODE (30_encoding.md R76, R78). -/
def Statement (i : Instr) : Prop :=
  opcodeOf (encode i) = opcode i ∧ rsvdOf (encode i) = 0#24 ∧ commandOf (opcode i) = some i ∧
    (flag i).toNat = (opcode i).toNat

theorem decode : Statement .decode := by unfold Statement; decide
theorem encode : Statement .encode := by unfold Statement; decide
theorem grayscale : Statement .grayscale := by unfold Statement; decide
theorem reflect : Statement .reflect := by unfold Statement; decide
theorem blur : Statement .blur := by unfold Statement; decide
theorem sepia : Statement .sepia := by unfold Statement; decide

end Sys2Proof.Laws.WordShape
end

