-- ==== Sys2Proof/Tests/Slice0.lean ====
section
/-! SUPPORT. The model's own tests. Expected results are those of spec/ (mostly 95_test_vectors.md, whose vector is
named in each comment). The witnesses at the end show concrete states and operands that meet the hypotheses of the
statements. -/

open Sys2Proof Sys2Proof.Machine Sys2Proof.Claims

namespace Sys2Proof.Tests

/-! ### Helpers -/

/-- Bytes at addresses 0, 1, 2, ... as a memory. -/
def listing (bytes : List Byte) : Memory := bytes.zipIdx.map fun p => (p.2, p.1)

/-- The reference frame F of 95_test_vectors.md: 2x2, 70 bytes. -/
def frameF : List Byte :=
  [0x42, 0x4D, 0x46, 0x00, 0x00, 0x00, 0x00, 0x00, 0x00, 0x00, 0x36, 0x00, 0x00, 0x00, 0x28, 0x00, 0x00, 0x00,
   0x02, 0x00, 0x00, 0x00, 0x02, 0x00, 0x00, 0x00, 0x01, 0x00, 0x18, 0x00] ++
  [0x00, 0x00, 0x00, 0x00, 0x10, 0x00, 0x00, 0x00, 0x00, 0x00, 0x00, 0x00, 0x00, 0x00, 0x00, 0x00, 0x00, 0x00,
   0x00, 0x00, 0x00, 0x00, 0x00, 0x00] ++
  [0x00, 0x00, 0xFF, 0x00, 0xFF, 0x00, 0x00, 0x00, 0xFF, 0x00, 0x00, 0xFF, 0xFF, 0xFF, 0x00, 0x00]

/-- A pixel from three numbers, in on-disk order. -/
def px (b g r : Nat) : Pixel := { b := BitVec.ofNat 8 b, g := BitVec.ofNat 8 g, r := BitVec.ofNat 8 r }

/-- A gray pixel. -/
def gray (v : Nat) : Pixel := px v v v

/-- F's pixels. -/
def pixelsF : List Pixel := [px 0 0 255, px 0 255 0, px 255 0 0, px 255 255 255]

/-- The state after reset with the input bytes loaded. -/
def loaded (bytes : List Byte) (len : Nat) : State :=
  { State.reset with inMem := listing bytes, inLen := BitVec.ofNat 32 len }

/-- A state with a command accepted. -/
def issued (i : Instr) (s : State) : State := s.accept (encode i)

/-- The state that an outcome leads to, if any. -/
def reached : Host.Outcome State Fault Refusal → Option State
  | .next t => some t
  | .fault _ => none
  | .refused _ => none

/-- The state after issuing and executing a command. -/
def ran (i : Instr) (s : State) : State := (reached (exec i (issued i s))).getD s

/-- A state that holds a frame of h rows by w columns under F's header with those dimensions. -/
def holding (h w : Nat) (pixels : List Pixel) : State :=
  { State.reset with
    valid := true
    width := BitVec.ofNat 32 w
    height := BitVec.ofNat 32 h
    padding := BitVec.ofNat 2 (pad w)
    hdr := Vector.ofFn fun i =>
      if i.val = 18 then BitVec.ofNat 8 w else if i.val = 22 then BitVec.ofNat 8 h else frameF.getD i.val 0#8
    pix := pixels }

/-- A state under a rounding mode. -/
def under (mode : RoundMode) (s : State) : State := { s with rnd := mode }

/-- A state with other capacities. -/
def sized (inCap outCap pixCap : Nat) (s : State) : State :=
  { s with params := { inCap := inCap, outCap := outCap, pixCap := pixCap } }

/-- A state with one planned turn. -/
def planned (t : Turn) (s : State) : State := { s with schedule := [t] }

/-- The state after one host access from `s`. -/
def accessed (x : HostAccess) (s : State) : State := (reached (step (planned (.host x) s))).getD s

/-- F with some bytes changed. -/
def frameFWith (changes : List (Nat × Byte)) : List Byte := changes.foldl (fun bytes c => bytes.set c.1 c.2) frameF

/-- The state in which DECODE runs on the given bytes. -/
def decoding (bytes : List Byte) (len : Nat) : State := issued .decode (loaded bytes len)

/-! ### Decoding (30_encoding.md R76 to R80), words written out from the opcode map -/

theorem test_decode_word_decode : decodeWord 0b00000000_00000000_00000000_01100100#32 = .command .decode := by decide
theorem test_decode_word_encode : decodeWord 0b00000000_00000000_00000000_01100101#32 = .command .encode := by decide
theorem test_decode_word_grayscale : decodeWord 0b00000000_00000000_00000000_01100111#32 = .command .grayscale := by
  decide
theorem test_decode_word_reflect : decodeWord 0b00000000_00000000_00000000_01110010#32 = .command .reflect := by decide
theorem test_decode_word_blur : decodeWord 0b00000000_00000000_00000000_01100010#32 = .command .blur := by decide
theorem test_decode_word_sepia : decodeWord 0b00000000_00000000_00000000_01110011#32 = .command .sepia := by decide

/-- C-3, C-5, C-2: a reserved bit, an upper-case letter and the zero word are no commands. -/
theorem test_decode_rejects :
    decodeWord 0x00000162#32 = .rejected (.reservedBits 0x00000162#32) ∧
    decodeWord 0x80000064#32 = .rejected (.reservedBits 0x80000064#32) ∧
    decodeWord 0x00000042#32 = .rejected (.unknownOpcode 0x00000042#32) ∧
    decodeWord 0x00000000#32 = .rejected (.unknownOpcode 0x00000000#32) := by decide

/-- The word of one CSR write lies in memory with its least significant byte first (20_memory.md R58). -/
theorem test_decode_bytes :
    decodeBytes [0x73#8, 0x00#8, 0x00#8, 0x00#8, 0x62#8] = (.command .sepia, [0x62#8]) ∧
    (decodeBytes [0x00#8, 0x00#8, 0x00#8, 0x73#8]).1 = .rejected (.unknownOpcode 0x73000000#32) ∧
    (decodeBytes [0x73#8]).1 = .rejected (.short [0x73#8]) := by decide

/-- The host's two questions on a table row: the decoder gives it, and the step runs it as the first command. -/
theorem test_table_word :
    decodeTableWord 32 0x62 = some .blur ∧ decodeTableWord 8 0x62 = some .blur ∧ decodeTableWord 32 0x162 = none ∧
    (State.reset.withFetchWord 32 0x64).pend.word = 0x64#32 ∧
    ((reached (step (State.reset.withFetchWord 32 0x64))).map fun t => t.errCode) = some .truncatedInput ∧
    ((reached (step (State.reset.withFetchWord 32 0x62))).map fun t => t.errCode) = some .noFrame := by decide

/-- Mnemonics and flag letters name the commands (30_encoding.md R87). -/
theorem test_command_named :
    commandNamed "BLUR" = some .blur ∧ commandNamed "b" = some .blur ∧ commandNamed "x" = none := by decide

/-! ### WellFormed: an ill-formed term for each check, refused -/

theorem test_wf_refuses_small_inCap : ({ inCap := 53, outCap := 54, pixCap := 1 } : Config.Params).wf = false := by decide
theorem test_wf_refuses_large_inCap : ({ inCap := 2 ^ 32, outCap := 54, pixCap := 1 } : Config.Params).wf = false := by
  decide
theorem test_wf_refuses_small_outCap : ({ inCap := 54, outCap := 53, pixCap := 1 } : Config.Params).wf = false := by
  decide
theorem test_wf_refuses_large_outCap : ({ inCap := 54, outCap := 2 ^ 32, pixCap := 1 } : Config.Params).wf = false := by
  decide
theorem test_wf_refuses_zero_pixCap : ({ inCap := 54, outCap := 54, pixCap := 0 } : Config.Params).wf = false := by decide
theorem test_wf_refuses_large_pixCap :
    ({ inCap := 54, outCap := 54, pixCap := 2 ^ 28 + 1 } : Config.Params).wf = false := by decide
theorem test_wf_accepts_bounds :
    ({ inCap := 54, outCap := 54, pixCap := 1 } : Config.Params).wf = true ∧
    ({ inCap := 2 ^ 32 - 1, outCap := 2 ^ 32 - 1, pixCap := 2 ^ 28 } : Config.Params).wf = true ∧
    Config.vectorParams.wf = true := by decide

/-! ### Arithmetic (L2-1, L1-8) -/

theorem test_roundDiv_ties :
    (roundDiv 5 2 .halfUp, roundDiv 5 2 .trunc, roundDiv 5 2 .halfEven) = (3, 2, 2) ∧
    (roundDiv 7 2 .halfUp, roundDiv 7 2 .trunc, roundDiv 7 2 .halfEven) = (4, 3, 4) ∧
    (roundDiv 2500 1000 .halfUp, roundDiv 2500 1000 .trunc, roundDiv 2500 1000 .halfEven) = (3, 2, 2) ∧
    (roundDiv 344505 1000 .halfUp, roundDiv 344505 1000 .trunc, roundDiv 344505 1000 .halfEven) = (345, 344, 345) := by
  decide

theorem test_pad_and_stride :
    ([0, 1, 2, 3, 4, 5, 7, 8].map pad) = [0, 1, 2, 3, 0, 1, 3, 0] ∧
    ([0, 1, 2, 3, 4, 5, 7, 8].map stride) = [0, 4, 8, 12, 12, 16, 24, 24] := by decide

/-! ### DECODE and ENCODE -/

/-- D-1. -/
theorem test_decode_frameF :
    let t := ran .decode (loaded frameF 70)
    statusWord t = 0x0000640A#32 ∧ t.width = 2#32 ∧ t.height = 2#32 ∧ t.padding = 2#2 ∧ t.pix = pixelsF ∧
      t.csrRead 4 0x100#12 = 0x00464D42#32 ∧ t.csrRead 4 0x120#12 = 0x00100000#32 ∧
      t.csrRead 4 0x134#12 = 0x00000000#32 := by decide +kernel

/-- D-24: a failing DECODE clears VALID and keeps the frame's registers. -/
theorem test_decode_failure_keeps_registers :
    let t := ran .decode { ran .decode (loaded frameF 70) with inMem := listing (frameFWith [(0, 0x43#8)]) }
    statusWord t = 0x00016404#32 ∧ t.errInfo = 1#32 ∧ t.width = 2#32 ∧ t.csrRead 4 0x100#12 = 0x00464D42#32 := by
  decide +kernel

/-- E-5: the padding bytes 0xAB of the input come out as zero. -/
theorem test_encode_zeroes_padding :
    let s := loaded (frameFWith [(0x3C, 0xAB#8), (0x3D, 0xAB#8), (0x44, 0xAB#8), (0x45, 0xAB#8)]) 70
    let t := ran .encode (ran .decode s)
    statusWord t = 0x0000650A#32 ∧ t.outLen = 70#32 ∧ t.outMem = listing frameF := by decide +kernel

/-- E-3: one byte too few; and ENCODE with no frame after a successful one, which sets OUT_LEN to 0 (10_state.md R33,
92_eei_decisions.md D44). -/
theorem test_encode_failures :
    let t := ran .encode (sized 4096 69 1024 (ran .decode (loaded frameF 70)))
    statusWord t = 0x0004650C#32 ∧ t.outLen = 0#32 ∧ t.errInfo = 70#32 ∧ t.outMem = [] ∧
      (ran .encode { State.reset with outLen := 70#32 }).outLen = 0#32 := by decide +kernel

/-! ### The filters -/

/-- L2-4: (1,1,0), (10,20,31) and (200,100,50) under TRUNC and HALF_UP. -/
theorem test_grayscale :
    (ran .grayscale (under .trunc (holding 1 3 [px 1 1 0, px 10 20 31, px 200 100 50]))).pix =
      [gray 0, gray 20, gray 116] ∧
    (ran .grayscale (holding 1 3 [px 1 1 0, px 10 20 31, px 200 100 50])).pix = [gray 1, gray 20, gray 117] := by
  decide +kernel

/-- L2-4: GRAYSCALE with no frame. -/
theorem test_grayscale_no_frame :
    statusWord (ran .grayscale State.reset) = 0x00066704#32 ∧ (ran .grayscale State.reset).errInfo = 0x67#32 := by
  decide

/-- L2-5: the 2x3 frame. -/
theorem test_reflect :
    (ran .reflect (holding 2 3 [px 1 2 3, px 4 5 6, px 7 8 9, px 10 11 12, px 13 14 15, px 16 17 18])).pix =
      [px 7 8 9, px 4 5 6, px 1 2 3, px 16 17 18, px 13 14 15, px 10 11 12] := by decide +kernel

/-- L2-5: widths 1 and 4. -/
theorem test_reflect_even_width :
    (ran .reflect (holding 1 4 [px 1 0 0, px 2 0 0, px 3 0 0, px 4 0 0])).pix =
      [px 4 0 0, px 3 0 0, px 2 0 0, px 1 0 0] ∧
    (ran .reflect (holding 2 1 [px 1 0 0, px 2 0 0])).pix = [px 1 0 0, px 2 0 0] := by decide +kernel

/-- B-7, in the three modes. -/
theorem test_blur_three_by_four :
    let s := holding 3 4 ([165, 77, 202, 24, 37, 48, 187, 29, 109, 19, 44, 222].map gray)
    (ran .blur s).pix = [82, 119, 95, 111, 76, 99, 95, 118, 53, 74, 92, 121].map gray ∧
    (ran .blur (under .trunc s)).pix = [81, 119, 94, 110, 75, 98, 94, 118, 53, 74, 91, 120].map gray ∧
    (ran .blur (under .halfEven s)).pix = [82, 119, 94, 110, 76, 99, 95, 118, 53, 74, 92, 120].map gray := by
  decide +kernel

/-- B-2, B-3, B-4: frames one pixel high or wide. -/
theorem test_blur_thin_frames :
    (ran .blur (holding 1 3 [gray 10, gray 20, gray 31])).pix = [gray 15, gray 20, gray 26] ∧
    (ran .blur (under .trunc (holding 3 1 [gray 10, gray 20, gray 31]))).pix = [gray 15, gray 20, gray 25] ∧
    (ran .blur (holding 1 1 [px 9 8 7])).pix = [px 9 8 7] := by decide +kernel

/-- L2-7: white, a green tie and a blue tie under HALF_UP. -/
theorem test_sepia :
    (ran .sepia (holding 1 4 [px 255 255 255, px 100 150 200, px 72 2 0, px 10 20 30])).pix =
      [px 239 255 255, px 148 190 213, px 11 13 15, px 20 26 29] := by decide +kernel

/-- L2-7: the same under TRUNC and under HALF_EVEN. -/
theorem test_sepia_modes :
    (ran .sepia (under .trunc (holding 1 3 [px 255 255 255, px 100 150 200, px 72 2 0]))).pix =
      [px 238 255 255, px 147 189 212, px 10 13 15] ∧
    (ran .sepia (under .halfEven (holding 1 3 [px 0 0 255, px 100 150 200, px 72 2 0]))).pix =
      [px 69 89 100, px 148 190 213, px 10 13 15] := by decide +kernel

/-! ### Command interface, registers, memories (L2-8) -/

/-- C-1. -/
theorem test_reset_registers :
    ([0x000#12, 0x004#12, 0x008#12, 0x010#12, 0x014#12, 0x028#12, 0x030#12, 0x100#12].map (State.reset.csrRead 4)) =
      [0x464C5401#32, 0#32, 0#32, 0#32, 0#32, 4096#32, 1024#32, 0#32] := by decide

/-- C-3, C-5: illegal words; VALID stays. -/
theorem test_illegal_words :
    ((reached (execute (State.reset.accept 0x162#32))).map fun t => (statusWord t, t.errInfo)) =
      some (0x00056204#32, 0x162#32) ∧
    ((reached (execute ((holding 2 2 pixelsF).accept 0x42#32))).map fun t => (statusWord t, t.errInfo)) =
      some (0x0005420C#32, 0x42#32) := by decide

/-- C-6, C-7: RND refuses 0b11; bit 31 resets whatever the other bits are. -/
theorem test_ctrl_writes :
    (accessed (.csrWrite 4 0x004#12 0x00000007#32) State.reset).csrRead 4 0x004#12 = 0x00000004#32 ∧
    (accessed (.csrWrite 4 0x004#12 0xFFFFFFF9#32) { holding 2 2 pixelsF with rnd := .halfEven, irqEn := true, inLen := 70#32 }).csrRead
      4 0x004#12 = 0#32 ∧
    (accessed (.csrWrite 4 0x004#12 0xFFFFFFF9#32) { holding 2 2 pixelsF with inLen := 70#32 }).valid = false := by decide

/-- C-8, C-17. -/
theorem test_in_len_and_reserved :
    (accessed (.csrWrite 4 0x010#12 0xFFFFFFFF#32) State.reset).inLen = 4096#32 ∧
    State.reset.csrRead 4 0x00C#12 = 0#32 ∧ State.reset.csrRead 4 0x034#12 = 0#32 ∧
    State.reset.csrRead 4 0x138#12 = 0#32 := by decide

/-- C-9, C-10, C-11: write-1-to-clear. -/
theorem test_status_writes :
    let s := ran .decode (loaded frameF 70)
    let f := ran .decode (loaded frameF 53)
    statusWord (accessed (.csrWrite 4 0x008#12 0x2#32) s) = 0x00006408#32 ∧
    statusWord (accessed (.csrWrite 4 0x008#12 0x2#32) f) = 0x00026404#32 ∧
    statusWord (accessed (.csrWrite 4 0x008#12 0x4#32) f) = 0x00026400#32 ∧
    (accessed (.csrWrite 4 0x008#12 0x4#32) f).errInfo = 54#32 := by decide +kernel

/-- C-14, second outcome: a CMD write while BLUR runs is dropped and sets OVR. -/
theorem test_overrun :
    let s := accessed (.csrWrite 4 0x00C#12 0x67#32) (issued .blur (holding 2 2 pixelsF))
    s.pend.word = 0x62#32 ∧ ((reached (step { s with schedule := [] })).map statusWord) = some 0x0000621A#32 := by
  decide +kernel

/-- C-16: accesses of another width or alignment. -/
theorem test_csr_access_forms :
    (accessed (.csrWrite 1 0x004#12 0x5#32) State.reset).csrRead 4 0x004#12 = 0#32 ∧
    State.reset.csrRead 4 0x006#12 = 0#32 ∧ State.reset.csrRead 2 0x000#12 = 0#32 := by decide

/-- C-18, C-20. -/
theorem test_in_accesses :
    (accessed (.inWrite .four 1 0x11223344#32) State.reset).inMem = [(1, 0x44#8), (2, 0x33#8), (3, 0x22#8), (4, 0x11#8)] ∧
    (accessed (.inWrite .four 1 0x11223344#32) State.reset).readIn 2 2 = 0x2233#32 ∧
    State.reset.readIn 1 4096 = 0#32 ∧
    (accessed (.inWrite .two 4095 0xBBAA#32) State.reset).inMem = [(4095, 0xAA#8)] := by decide +kernel

/-- C-19: a host write to OUT is ignored. -/
theorem test_out_write_ignored : (accessed (.outWrite .one 0 0x5A#32) State.reset).outMem = [] := by decide

/-- C-12, C-13: the interrupt level. -/
theorem test_irq :
    let s := ran .decode (loaded frameF 70)
    s.irq = false ∧ (accessed (.csrWrite 4 0x004#12 0x4#32) s).irq = true ∧
    (accessed (.csrWrite 4 0x008#12 0x16#32) (accessed (.csrWrite 4 0x004#12 0x4#32) s)).irq = false := by decide +kernel

/-- The bus accesses of P3's `cmd #0x00000167`, `ack` and of `setctl 1, 1` (P4). -/
theorem test_statements :
    stmtAccesses [] (.cmdWord 0x167#32) = [.csrWrite 4 0x00C#12 0x167#32] ∧
    stmtAccesses [] .ack = [.csrWrite 4 0x008#12 0x16#32] ∧
    stmtAccesses [] (.setctl 1#2 true) = [.csrWrite 4 0x004#12 0x5#32] ∧
    stmtAccesses [] .srst = [.csrWrite 4 0x004#12 0x80000000#32] ∧
    stmtAccesses [] (.inb 5 [0x42#8, 0x4D#8]) = [.inWrite .one 5 0x42#32, .inWrite .one 6 0x4D#32] := by decide

/-- P1 with two input bytes and two output bytes, two more STATUS reads in its second loop: the encoding the spec gives. -/
theorem test_filter_program :
    programAccesses [0, 2] [{ label := some "start", stmt := some (.setctl 0#2 false), comment := "HALF_UP" },
        { label := none, stmt := some (.load 70#32 [0x42#8, 0x4D#8]), comment := "" },
        { label := none, stmt := some (.filter .reflect), comment := "" },
        { label := none, stmt := some (.outb 0 2), comment := "" }] =
      [.csrWrite 4 0x004#12 0#32, .inWrite .one 0 0x42#32, .inWrite .one 1 0x4D#32, .csrWrite 4 0x010#12 0x46#32,
       .csrWrite 4 0x00C#12 0x64#32, .csrRead 4 0x008#12,
       .csrWrite 4 0x00C#12 0x72#32, .csrRead 4 0x008#12, .csrRead 4 0x008#12, .csrRead 4 0x008#12,
       .csrWrite 4 0x00C#12 0x65#32, .csrRead 4 0x008#12, .outRead .one 0, .outRead .one 1] := by decide

/-- What the host reads and what it has still to do, once an outcome of playing is reached. -/
def readsAndRest (o : Host.Outcome Playing Fault Refusal) : Option (List Word × List HostOp) :=
  match o with
  | .next p => some (p.machine.reads, p.program)
  | .fault _ => none
  | .refused _ => none

/-- `run DECODE` of F with two reads of BUSY = 1: the loop ends at the first read with bit 0 clear (P1). -/
theorem test_wait_loop :
    readsAndRest (runCommand .decode 2 (loaded frameF 70)) = some ([0x0000640A#32, 0x00006401#32, 0x00006401#32], []) ∧
    readsAndRest (play [.host, .host, .host] { machine := loaded frameF 70, program := stmtOps (.run .decode) }) =
      some ([0x00006401#32, 0x00006401#32], [.waitIdle false]) := by decide +kernel

/-- P3's input: `filter` stops after the DECODE that fails with FORMAT_ERROR(4). -/
theorem test_filter_stops :
    readsAndRest (runFilter .blur 0 0 0 (loaded (frameFWith [(28, 0x20#8)]) 70)) = some ([0x00016404#32], []) := by
  decide +kernel

/-! ### Witnesses: the hypotheses of each statement can be met -/

/-- A state that holds F, idle. -/
def stateF : State := holding 2 2 pixelsF

/-- F's header with width 0 and height 5 (D-19). -/
def emptyFrame : List Byte := (frameFWith [(18, 0x00#8), (22, 0x05#8)]).take 54

theorem witness_WordSelectsCommandExactly : ∀ i, (0x00000162#32 : Word) ≠ encode i := by
  intro i
  cases i <;> decide

theorem witness_DecodeBytesInvertsEncodeBytes :
    Instr.wf .sepia = true ∧ [0x73#8, 0x00#8, 0x00#8, 0x00#8, 0xFF#8] = encodeBytes .sepia ++ [0xFF#8] := by decide

theorem witness_StepRunsDecodedCommand_idle_plan :
    engineMoves (issued .blur stateF) (issued .blur stateF) ∧ (issued .blur stateF).busy = true ∧
      decodeWord (issued .blur stateF).pend.word = .command .blur := ⟨.inl ⟨rfl, rfl⟩, rfl, by decide⟩

theorem witness_StepRunsDecodedCommand_planned :
    engineMoves (planned .engine (issued .sepia stateF)) (issued .sepia stateF) ∧
      (planned .engine (issued .sepia stateF)).busy = true ∧
      decodeWord (planned .engine (issued .sepia stateF)).pend.word = .command .sepia :=
  ⟨.inr ⟨[], rfl, rfl⟩, rfl, by decide⟩

theorem witness_IllegalWordFails :
    engineMoves (stateF.accept 0x42#32) (stateF.accept 0x42#32) ∧ (stateF.accept 0x42#32).busy = true ∧
      ∀ i, (stateF.accept 0x42#32).pend.word ≠ encode i :=
  ⟨.inl ⟨rfl, rfl⟩, rfl, by intro i; cases i <;> decide⟩

theorem witness_EngineWaitsForCommand :
    engineMoves (planned .engine stateF) stateF ∧ (planned .engine stateF).busy = false := ⟨.inr ⟨[], rfl, rfl⟩, rfl⟩

theorem witness_CompletionReportsExactlyOne :
    engineMoves (issued .blur stateF) (issued .blur stateF) ∧ (issued .blur stateF).busy = true ∧
      ReportCoherent (issued .blur stateF) :=
  ⟨.inl ⟨rfl, rfl⟩, rfl, by decide, by decide, by decide, by decide, by decide, by decide⟩

theorem witness_CommandAcceptance :
    (planned (.host (.csrWrite 4 0x00C#12 0x65#32)) stateF).busy = false ∧
      (planned (.host (.csrWrite 4 0x00C#12 0x65#32)) stateF).schedule = [.host (.csrWrite 4 0x00C#12 0x65#32)] :=
  ⟨rfl, rfl⟩

theorem witness_CommandOverrun :
    (planned (.host (.csrWrite 4 0x00C#12 0x67#32)) (issued .blur stateF)).busy = true ∧
      (planned (.host (.csrWrite 4 0x00C#12 0x67#32)) (issued .blur stateF)).schedule =
        [.host (.csrWrite 4 0x00C#12 0x67#32)] := ⟨rfl, rfl⟩

/-- One word for each pattern of the RND bits, none with bit 31 set. -/
theorem witness_CtrlWrite :
    (0x00000004#32).getLsbD 31 = false ∧ (0x00000004#32).extractLsb' 0 2 = 0b00#2 ∧
    (0x7FFFFFFD#32).getLsbD 31 = false ∧ (0x7FFFFFFD#32).extractLsb' 0 2 = 0b01#2 ∧
    (0x00000006#32).getLsbD 31 = false ∧ (0x00000006#32).extractLsb' 0 2 = 0b10#2 ∧
    (0x00000007#32).getLsbD 31 = false ∧ (0x00000007#32).extractLsb' 0 2 = 0b11#2 ∧
    (planned (.host (.csrWrite 4 0x004#12 0x00000007#32)) stateF).schedule =
      [.host (.csrWrite 4 0x004#12 0x00000007#32)] := by decide

theorem witness_StatusWriteOneToClear :
    (planned (.host (.csrWrite 4 0x008#12 0x16#32)) stateF).schedule = [.host (.csrWrite 4 0x008#12 0x16#32)] := rfl

theorem witness_InLenWriteIsCapped :
    (planned (.host (.csrWrite 4 0x010#12 0xFFFFFFFF#32)) stateF).schedule =
      [.host (.csrWrite 4 0x010#12 0xFFFFFFFF#32)] := rfl

/-- A width of 2, an offset not a multiple of 4, ID, the first read-only offset, the last offset, and OUT. -/
theorem witness_IgnoredWritesChangeNothing :
    (2 ≠ 4 ∧ (0x006#12).toNat % 4 ≠ 0 ∧ 0x014 ≤ (0x014#12).toNat ∧ 0x014 ≤ (0xFFC#12).toNat) ∧
    (planned (.host (.csrWrite 2 0x004#12 1#32)) stateF).schedule = [.host (.csrWrite 2 0x004#12 1#32)] ∧
    (planned (.host (.csrWrite 4 0x000#12 1#32)) stateF).schedule = [.host (.csrWrite 4 0x000#12 1#32)] ∧
    (planned (.host (.outWrite .one 0 1#32)) stateF).schedule = [.host (.outWrite .one 0 1#32)] := by decide

/-- The bounds of the two reserved ranges, a misaligned offset, another width, and CMD. -/
theorem witness_CsrReadsAnswerWithoutSideEffect :
    (0x034 ≤ (0x034#12).toNat ∧ (0x034#12).toNat ≤ 0x0FC) ∧ (0x034 ≤ (0x0FC#12).toNat ∧ (0x0FC#12).toNat ≤ 0x0FC) ∧
    0x138 ≤ (0x138#12).toNat ∧ 0x138 ≤ (0xFFC#12).toNat ∧ (0x006#12).toNat % 4 ≠ 0 ∧ 1 ≠ 4 ∧
    (planned (.host (.csrRead 4 0x00C#12)) stateF).schedule = [.host (.csrRead 4 0x00C#12)] ∧
    (planned (.host (.csrRead 4 0x138#12)) stateF).schedule = [.host (.csrRead 4 0x138#12)] := by decide

/-- The last byte of the header, and a byte of HDR13 above it. -/
theorem witness_HeaderWindowReads :
    (13 < 14 ∧ 1 < 4 ∧ 4 * 13 + 1 < 54) ∧ (13 < 14 ∧ 3 < 4 ∧ ¬(4 * 13 + 3 < 54)) := by decide

theorem witness_IdentityAndCapacitiesConstant :
    (∃ t, step (issued .blur stateF) = .next t) ∧ stateF.params.wf = true := ⟨⟨_, rfl⟩, by decide⟩

theorem witness_InterruptLevel_completion :
    engineMoves (issued .blur { stateF with irqEn := true }) (issued .blur { stateF with irqEn := true }) ∧
      (issued .blur { stateF with irqEn := true }).busy = true ∧
      (issued .blur { stateF with irqEn := true }).irqEn = true ∧
      ReportCoherent (issued .blur { stateF with irqEn := true }) :=
  ⟨.inl ⟨rfl, rfl⟩, rfl, rfl, by decide, by decide, by decide, by decide, by decide, by decide⟩

theorem witness_InterruptLevel_enable :
    (planned (.host (.csrWrite 4 0x004#12 0x4#32)) (ran .reflect stateF)).schedule =
      [.host (.csrWrite 4 0x004#12 0x4#32)] ∧ (0x4#32).getLsbD 31 = false ∧
      (planned (.host (.csrWrite 4 0x004#12 0x4#32)) (ran .reflect stateF)).done = true := ⟨rfl, by decide, rfl⟩

theorem witness_RunningCommandIgnoresCsrWrites :
    (issued .blur stateF).busy = true ∧
    (HostAccess.csrWrite 4 0x004#12 0x1#32 = .csrWrite 4 0x004#12 0x1#32 ∧ (0x1#32).getLsbD 31 = false) ∧
    HostAccess.csrWrite 4 0x010#12 0x46#32 = .csrWrite 4 0x010#12 0x46#32 := ⟨rfl, ⟨rfl, by decide⟩, rfl⟩

/-- A write across the end of IN_MEM: the first byte is stored, the second is not. -/
theorem witness_InWriteStoresBytes :
    (planned (.host (.inWrite .two 4095 0xBBAA#32)) stateF).schedule = [.host (.inWrite .two 4095 0xBBAA#32)] ∧
      (4095 ≤ 4095 ∧ 4095 < 4095 + Size.two.bytes ∧ 4095 < stateF.params.inCap) ∧
      ¬(4096 < stateF.params.inCap) := by decide

theorem witness_InReadAnswersBytes :
    (planned (.host (.inRead .two 4095)) stateF).schedule = [.host (.inRead .two 4095)] ∧
      (0 < 4 ∧ 0 < Size.two.bytes ∧ 4095 + 0 < stateF.params.inCap) ∧ (1 < 4 ∧ ¬(4095 + 1 < stateF.params.inCap)) ∧
      (3 < 4 ∧ ¬(3 < Size.two.bytes)) := by decide

/-- A read across the end of the output range of an ENCODE in flight, and a byte above a 2-byte read. -/
theorem witness_OutReadAnswersOldOrNewBytes :
    (planned (.host (.outRead .two 69)) (issued .encode stateF)).schedule = [.host (.outRead .two 69)] ∧
      (issued .encode stateF).busy = true ∧ (issued .encode stateF).pend.word = 0x00000065#32 ∧
      69 + 0 < (issued .encode stateF).frameBytes ∧ ¬(69 + 1 < (issued .encode stateF).frameBytes) ∧
      (Size.two.bytes ≤ 2 ∧ 2 < 4) := by decide

theorem witness_RacedDecodeSeesOldOrWritten :
    (decoding frameF 70).busy = true ∧ (decoding frameF 70).pend.word = 0x00000064#32 ∧
    ({ decoding frameF 70 with
        schedule := [.host (.inWrite .one 0 0x43#32), .host (.inWrite .four 54 0#32), .engine] } : State).schedule =
      ([(Size.one, 0, 0x43#32), (Size.four, 54, 0#32)].map fun w => Turn.host (.inWrite w.1 w.2.1 w.2.2)) ++
        [.engine] := by decide

theorem witness_UnracedDecodeSeesInMem :
    stateF.raced = [] ∧ (planned (.host (.csrWrite 4 0x00C#12 0x64#32)) stateF).busy = false ∧
    (planned (.host (.csrWrite 4 0x00C#12 0x64#32)) stateF).schedule = [.host (.csrWrite 4 0x00C#12 0x64#32)] :=
  ⟨rfl, rfl, rfl⟩

theorem witness_CommandsNeedFrame :
    (issued .encode State.reset).valid = false ∧ Instr.encode ≠ .decode := by decide

theorem witness_DecodeCommitsFrame :
    Acceptable (decoding frameF 70).decodeByte (decoding frameF 70).pend.inLen.toNat (decoding frameF 70).params.pixCap ∧
    Acceptable (decoding emptyFrame 54).decodeByte (decoding emptyFrame 54).pend.inLen.toNat
      (decoding emptyFrame 54).params.pixCap := by
  unfold Acceptable
  decide +kernel

/-- The first check that fails, of the checks of `DecodeChecksInOrder`, with its detail value: D-2 to D-10. -/
theorem witness_DecodeChecksInOrder_header :
    (decoding frameF 53).pend.inLen.toNat < 54 ∧
    (let A := (decoding (frameFWith [(0, 0x43#8)]) 54).decodeByte
     (decoding (frameFWith [(0, 0x43#8)]) 54).pend.inLen.toNat = 54 ∧ le16 A 0 ≠ 0x4D42) ∧
    (let A := (decoding (frameFWith [(10, 0x37#8)]) 70).decodeByte
     le16 A 0 = 0x4D42 ∧ le32 A 10 ≠ 54) ∧
    (let A := (decoding (frameFWith [(14, 0x0C#8)]) 70).decodeByte
     le16 A 0 = 0x4D42 ∧ le32 A 10 = 54 ∧ le32 A 14 ≠ 40) ∧
    (let A := (decoding (frameFWith [(28, 0x20#8)]) 70).decodeByte
     le16 A 0 = 0x4D42 ∧ le32 A 10 = 54 ∧ le32 A 14 = 40 ∧ le16 A 28 ≠ 24) ∧
    (let A := (decoding (frameFWith [(30, 0x01#8)]) 70).decodeByte
     le16 A 0 = 0x4D42 ∧ le32 A 10 = 54 ∧ le32 A 14 = 40 ∧ le16 A 28 = 24 ∧ le32 A 30 ≠ 0) ∧
    (let A := (decoding (frameFWith [(18, 0xFF#8), (19, 0xFF#8), (20, 0xFF#8), (21, 0xFF#8)]) 70).decodeByte
     le16 A 0 = 0x4D42 ∧ le32 A 10 = 54 ∧ le32 A 14 = 40 ∧ le16 A 28 = 24 ∧ le32 A 30 = 0 ∧ sle32 A 18 < 0) := by
  decide +kernel

/-- D-12 with one cell too few, D-13 with one byte too few. -/
theorem witness_DecodeChecksInOrder_size :
    (let s := sized 4096 4096 3 (decoding frameF 70)
     let A := s.decodeByte
     54 ≤ s.pend.inLen.toNat ∧ le16 A 0 = 0x4D42 ∧ le32 A 10 = 54 ∧ le32 A 14 = 40 ∧ le16 A 28 = 24 ∧ le32 A 30 = 0 ∧
       0 ≤ sle32 A 18 ∧ s.params.pixCap < (sle32 A 18).toNat * (sle32 A 22).natAbs) ∧
    (let s := sized 4096 4096 4 (decoding frameF 69)
     let A := s.decodeByte
     54 ≤ s.pend.inLen.toNat ∧ le16 A 0 = 0x4D42 ∧ le32 A 10 = 54 ∧ le32 A 14 = 40 ∧ le16 A 28 = 24 ∧ le32 A 30 = 0 ∧
       0 ≤ sle32 A 18 ∧ (sle32 A 18).toNat * (sle32 A 22).natAbs ≤ s.params.pixCap ∧
       s.pend.inLen.toNat < 54 + (sle32 A 22).natAbs * stride (sle32 A 18).toNat) := by
  decide +kernel

/-- E-2: a frame that fits exactly. -/
theorem witness_EncodeWritesFrame :
    let s := sized 4096 70 1024 (issued .encode stateF)
    s.params.wf = true ∧ s.valid = true ∧
      54 + s.height.toNat * (3 * s.width.toNat + s.padding.toNat) ≤ s.params.outCap ∧
      (1 < s.height.toNat ∧ 1 < s.width.toNat ∧ 1 < s.padding.toNat) := by decide

/-- E-3: one byte too few. -/
theorem witness_EncodeOverflowFails :
    let s := sized 4096 69 1024 (issued .encode stateF)
    s.valid = true ∧ s.params.outCap < 54 + s.height.toNat * (3 * s.width.toNat + s.padding.toNat) := by decide

/-- For the results of GRAYSCALE, REFLECT, BLUR and SEPIA: a frame held, and its last pixel. -/
theorem witness_filter_results :
    (issued .grayscale stateF).valid = true ∧ 1 < (issued .grayscale stateF).height.toNat ∧
      1 < (issued .grayscale stateF).width.toNat ∧ (issued .reflect stateF).valid = true ∧
      1 < (issued .reflect stateF).height.toNat ∧ 1 < (issued .reflect stateF).width.toNat ∧
      (issued .blur stateF).valid = true ∧ 1 < (issued .blur stateF).height.toNat ∧
      1 < (issued .blur stateF).width.toNat ∧ (issued .sepia stateF).valid = true ∧
      1 < (issued .sepia stateF).height.toNat ∧ 1 < (issued .sepia stateF).width.toNat := by decide

theorem witness_FiltersFrame :
    (∃ t, exec .grayscale (issued .grayscale stateF) = .next t) ∧ (∃ t, exec .reflect (issued .reflect stateF) = .next t) ∧
    (∃ t, exec .blur (issued .blur stateF) = .next t) ∧ ∃ t, exec .sepia (issued .sepia stateF) = .next t :=
  ⟨⟨_, rfl⟩, ⟨_, rfl⟩, ⟨_, rfl⟩, ⟨_, rfl⟩⟩

theorem witness_DecodeFrame :
    (∃ t, exec .decode (decoding frameF 70) = .next t) ∧
    ∃ t, exec .decode (decoding frameF 53) = .next t ∧ t.valid = false := ⟨⟨_, rfl⟩, _, rfl, by decide +kernel⟩

/-- The first byte above the output. -/
theorem witness_EncodeFrame :
    (∃ t, exec .encode (issued .encode stateF) = .next t) ∧
    ¬((issued .encode stateF).valid = true ∧ (issued .encode stateF).frameBytes ≤ (issued .encode stateF).params.outCap ∧
      70 < (issued .encode stateF).frameBytes) := ⟨⟨_, rfl⟩, by decide⟩

theorem witness_HardwareResetValues :
    (planned .hardwareReset (issued .encode stateF)).schedule = [.hardwareReset] := rfl

/-- A soft reset during an ENCODE, and the first byte that it may not change. -/
theorem witness_SoftResetValues :
    (planned (.host (.csrWrite 4 0x004#12 0x80000000#32)) (issued .encode stateF)).schedule =
      [.host (.csrWrite 4 0x004#12 0x80000000#32)] ∧ (0x80000000#32).getLsbD 31 = true ∧
    ¬((issued .encode stateF).busy = true ∧ (issued .encode stateF).pend.word = 0x00000065#32 ∧
      70 < (issued .encode stateF).frameBytes) := by decide

theorem witness_FrameChangesOnlyByCommandsOrReset :
    (∃ t, step (decoding frameF 70) = .next t ∧ t.hdr ≠ (decoding frameF 70).hdr) ∧
    (∃ t, step (issued .reflect stateF) = .next t ∧ t.pix ≠ (issued .reflect stateF).pix) ∧
    ∃ t, step (planned .hardwareReset stateF) = .next t ∧ t.width ≠ stateF.width ∧ t.pix ≠ stateF.pix :=
  ⟨⟨_, rfl, by decide +kernel⟩, ⟨_, rfl, by decide +kernel⟩, _, rfl, by decide +kernel⟩

theorem witness_ValidChangesOnlyByDecodeOrReset :
    (∃ t, step (decoding frameF 70) = .next t ∧ t.valid ≠ (decoding frameF 70).valid) ∧
    (∃ t, step (issued .decode stateF) = .next t ∧ t.valid ≠ (issued .decode stateF).valid) ∧
    ∃ t, step (planned .hardwareReset stateF) = .next t ∧ t.valid ≠ stateF.valid :=
  ⟨⟨_, rfl, by decide +kernel⟩, ⟨_, rfl, by decide +kernel⟩, _, rfl, by decide +kernel⟩

/-- An ENCODE over an OUT_MEM whose byte 69 the host had seen as 0xEE, and a hardware reset after an ENCODE. -/
theorem witness_OutputChangesOnlyByEncodeOrReset :
    (∃ t, step { issued .encode stateF with outMem := [(69, 0xEE#8)] } = .next t ∧ t.outLen ≠ stateF.outLen ∧
      t.outByte 69 ≠ ({ issued .encode stateF with outMem := [(69, 0xEE#8)] } : State).outByte 69) ∧
    ∃ t, step (planned .hardwareReset { stateF with outLen := 70#32 }) = .next t ∧ t.outLen ≠ 70#32 :=
  ⟨⟨_, rfl, by decide +kernel⟩, _, rfl, by decide +kernel⟩

theorem witness_InputChangesOnlyByHostWriteOrReset :
    ∃ t, step (planned (.host (.inWrite .one 0 0x43#32)) (loaded frameF 70)) = .next t ∧
      t.inByte 0 ≠ (planned (.host (.inWrite .one 0 0x43#32)) (loaded frameF 70)).inByte 0 :=
  ⟨_, rfl, by decide +kernel⟩

theorem witness_ResetMeetsInvariant :
    ({ inCap := 54, outCap := 54, pixCap := 1 } : Config.Params).wf = true ∧ Config.vectorParams.wf = true := by decide

/-- The invariant holds in a state that holds a frame, and in one in which an ENCODE of it is in flight. -/
theorem stateF_meets_Inv : Inv stateF :=
  ⟨by decide, ⟨by decide +kernel, by decide +kernel, by decide +kernel⟩,
    fun _ => ⟨by decide +kernel, by decide +kernel, by decide +kernel, by decide +kernel, by decide +kernel, by decide,
      by decide⟩,
    ⟨by decide, by decide, by decide, by decide, by decide, by decide⟩,
    ⟨by decide, by decide, by decide, by decide⟩, ⟨by decide, by decide, by decide⟩⟩

theorem witness_StepKeepsInvariant : Inv stateF ∧ ∃ t, step stateF = .next t := ⟨stateF_meets_Inv, _, rfl⟩

/-- The same for a state in which the step executes a command. -/
theorem witness_StepKeepsInvariant_executing :
    Inv (issued .encode stateF) ∧ (issued .encode stateF).busy = true ∧ ∃ t, step (issued .encode stateF) = .next t :=
  ⟨⟨by decide, ⟨by decide +kernel, by decide +kernel, by decide +kernel⟩,
    fun _ => ⟨by decide +kernel, by decide +kernel, by decide +kernel, by decide +kernel, by decide +kernel, by decide,
      by decide⟩,
    ⟨by decide, by decide, by decide, by decide, by decide, by decide⟩,
    ⟨by decide, by decide, by decide, by decide⟩, ⟨by decide, by decide, by decide⟩⟩, rfl, _, rfl⟩

theorem witness_RoundDivByQuotientAndRemainder :
    (1 ≤ 3 ∧ 2 * (1 % 3) < 3) ∧ (1 ≤ 3 ∧ 3 < 2 * (2 % 3)) ∧ (1 ≤ 4 ∧ 2 * (2 % 4) = 4) := by decide

theorem witness_SaturationBounds : (1 ≤ 3 ∧ 765 ≤ 255 * 3) ∧ (1 ≤ 9 ∧ 2295 ≤ 255 * 9) := by decide

/-- A corner, the two kinds of edge, the interior, an end and the middle of a row and of a column, one pixel. -/
theorem witness_BlurDivisors :
    [windowSize 2 2 1 1, windowSize 2 3 1 1, windowSize 3 2 1 1, windowSize 3 3 1 1, windowSize 1 3 0 2,
      windowSize 1 3 0 1, windowSize 3 1 2 0, windowSize 3 1 1 0, windowSize 1 1 0 0] = [4, 6, 6, 9, 2, 3, 2, 3, 1] := by
  decide

theorem witness_FrameLengthFitsRegisters : Inv stateF ∧ stateF.valid = true := ⟨stateF_meets_Inv, rfl⟩

theorem witness_GrayscaleIdempotent : stateF.valid = true ∧ stateF.pix ≠ [] := by decide

theorem witness_ReflectInvolution : Inv stateF ∧ stateF.valid = true := ⟨stateF_meets_Inv, rfl⟩

theorem witness_BlurKeepsUniformFrame :
    (holding 3 3 (List.replicate 9 (px 10 20 30))).valid = true ∧
    ∀ r, r < 3 → ∀ c, c < 3 → (holding 3 3 (List.replicate 9 (px 10 20 30))).pixel r c = px 10 20 30 := by
  decide +kernel

/-- F with bad padding, and an empty frame. -/
theorem witness_DecodeEncodeRoundTrip :
    (∃ t, exec .decode (decoding (frameFWith [(0x3C, 0xAB#8)]) 70) = .next t ∧ t.valid = true ∧ t.width.toNat = 2 ∧
      t.frameBytes ≤ t.params.outCap ∧ 0x3C < t.frameBytes ∧ 3 * 2 ≤ (0x3C - 54) % stride 2) ∧
    ∃ t, exec .decode (decoding emptyFrame 54) = .next t ∧ t.valid = true ∧ t.width.toNat = 0 ∧
      t.frameBytes ≤ t.params.outCap := ⟨⟨_, rfl, by decide +kernel⟩, _, rfl, by decide +kernel⟩

/-- F against F with bad padding and a byte after the frame. -/
theorem witness_DecodeIgnoresPaddingAndTail :
    let s := decoding frameF 71
    let t : State := { s with inMem := listing (frameFWith [(0x3C, 0xAB#8), (0x45, 0xCD#8)] ++ [0xEE#8]), raced := [] }
    (∀ a, a < 54 → t.decodeByte a = s.decodeByte a) ∧
    (∀ a, a < 54 + (sle32 s.decodeByte 22).natAbs * stride (sle32 s.decodeByte 18).toNat → 54 ≤ a →
      (a - 54) % stride (sle32 s.decodeByte 18).toNat < 3 * (sle32 s.decodeByte 18).toNat →
      t.decodeByte a = s.decodeByte a) := by decide +kernel

theorem witness_RunStatementCompletes : stateF.busy = false := rfl

/-- The source's end-to-end example (L1-7), with an OUT_MEM that holds it exactly. -/
theorem witness_FilterReflectEndToEnd :
    let s := sized 4096 70 1024 (loaded frameF 70)
    s.busy = false ∧ s.params.wf = true ∧ Acceptable s.inByte s.inLen.toNat s.params.pixCap ∧
      54 + (sle32 s.inByte 22).natAbs * stride (sle32 s.inByte 18).toNat ≤ s.params.outCap ∧
      (1 < (sle32 s.inByte 22).natAbs ∧ 1 < (sle32 s.inByte 18).toNat ∧ 1 < pad (sle32 s.inByte 18).toNat) := by
  unfold Acceptable
  decide +kernel

/-- From reset nothing is loaded, so the DECODE of a `filter` fails. -/
theorem witness_FilterStopsAtFailedDecode :
    State.reset.busy = false ∧
    ∃ t, runCommand .decode 1 State.reset = .next { machine := t, program := [] } ∧ t.error = true :=
  ⟨rfl, _, rfl, rfl⟩

end Sys2Proof.Tests
end

section
/-! PROOFS. 00_scope.md: the rounding quotient of R16 in terms of quotient and remainder, and the length bound of R8. -/

namespace Sys2Proof.Machine

/-! ### The rounding quotient, one equation per mode (00_scope.md R16) -/

@[simp] theorem roundDiv_trunc (a n : Nat) : roundDiv a n .trunc = a / n := rfl

/-- With a = q n + r the numerator 2a + n is 2n q + (2r + n), so the quotient is q or q + 1 as 2r + n reaches 2n. -/
theorem roundDiv_halfUp (a : Nat) {n : Nat} (hn : 1 ≤ n) :
    roundDiv a n .halfUp = if 2 * (a % n) < n then a / n else a / n + 1 := by
  have hr : a % n < n := Nat.mod_lt a hn
  have hsplit : 2 * a + n = 2 * n * (a / n) + (2 * (a % n) + n) := by
    have ha := Nat.div_add_mod a n
    have hq : 2 * n * (a / n) = 2 * (n * (a / n)) := Nat.mul_assoc 2 n (a / n)
    omega
  have hquot : roundDiv a n .halfUp = a / n + (2 * (a % n) + n) / (2 * n) := by
    rw [roundDiv, hsplit, Nat.mul_add_div (by omega)]
  rw [hquot]
  split_ifs with h
  · have hzero : (2 * (a % n) + n) / (2 * n) = 0 := Nat.div_eq_of_lt (by omega)
    rw [hzero, Nat.add_zero]
  · have hone : (2 * (a % n) + n) / (2 * n) = 1 := Nat.div_eq_of_lt_le (by omega) (by omega)
    rw [hone]

theorem roundDiv_halfEven (a n : Nat) :
    roundDiv a n .halfEven =
      if 2 * (a % n) < n then a / n else if n < 2 * (a % n) then a / n + 1 else a / n + a / n % 2 := by
  simp only [roundDiv, ← Nat.mod_eq_sub_div_mul]

/-- Settles O49: each mode's equation, read below the half, above it and at it. -/
theorem roundDivByQuotientAndRemainder : Obligations.RoundDivByQuotientAndRemainder := by
  intro a n hn
  refine ⟨rfl, roundDiv_trunc a n, fun hbelow => ?_, fun habove => ?_, fun htie => ?_⟩ <;>
    rw [roundDiv_halfEven, roundDiv_halfUp a hn]
  · simp only [if_pos hbelow, and_self]
  · simp only [if_neg (Nat.lt_asymm habove), if_pos habove, and_self]
  · simp only [htie, Nat.lt_irrefl, if_false, and_self]

/-! ### The length of a frame held (00_scope.md R8) -/

/-- The padding of a row is at most one byte for each pixel, since 3w + w is a multiple of 4. -/
theorem stride_le (w : Nat) : stride w ≤ 4 * w := by
  simp only [stride, pad]
  omega

theorem HeaderShown.rowBytes_eq_stride {s : State} (h : HeaderShown s) : s.rowBytes = stride s.width.toNat := by
  rw [State.rowBytes, h.padding, stride]

theorem pixCap_le_of_wf {p : Config.Params} (h : p.wf = true) : p.pixCap ≤ 2 ^ 28 := by
  simp only [Config.Params.wf, Bool.and_eq_true, decide_eq_true_eq] at h
  exact h.2

theorem Inv.frameBytes_le {s : State} (h : Inv s) (hv : s.valid = true) : s.frameBytes ≤ 54 + 4 * s.params.pixCap := by
  have hrows : s.height.toNat * s.rowBytes ≤ 4 * s.params.pixCap := calc
    s.height.toNat * s.rowBytes = s.height.toNat * stride s.width.toNat := by rw [h.header.rowBytes_eq_stride]
    _ ≤ s.height.toNat * (4 * s.width.toNat) := Nat.mul_le_mul_left _ (stride_le _)
    _ = 4 * (s.width.toNat * s.height.toNat) := by ring
    _ ≤ 4 * s.params.pixCap := Nat.mul_le_mul_left 4 (h.frame hv).fits
  exact Nat.add_le_add_left hrows 54

theorem Inv.frameBytes_lt {s : State} (h : Inv s) (hv : s.valid = true) : s.frameBytes < 2 ^ 31 := by
  have hlen := h.frameBytes_le hv
  have hcap := pixCap_le_of_wf h.params
  omega

/-! ### ENCODE with a frame held (40_codec.md R108 to R110) -/

theorem exec_encode_of_valid {s : State} (h : s.valid = true) : exec .encode s = .next (encodeFrame s) := by
  rw [exec, execEncode, withFrame_of_valid _ _ h]

theorem encodeFrame_of_overflow {s : State} (h : s.params.outCap < s.frameBytes) :
    encodeFrame s = s.raise (some .encode) .ioError s.frameBytes := if_pos h

theorem encodeFrame_of_fits {s : State} (h : s.frameBytes ≤ s.params.outCap) :
    encodeFrame s = (storeFrame s).complete := if_neg (Nat.not_lt.mpr h)

/-- Settles O52: the length is below 2^31, so neither OUT_LEN nor ERR_INFO truncates it. -/
theorem frameLengthFitsRegisters : Obligations.FrameLengthFitsRegisters := by
  intro s hinv hv
  have hlen := hinv.frameBytes_le hv
  have hlt := hinv.frameBytes_lt hv
  have hexact : (BitVec.ofNat 32 s.frameBytes).toNat = s.frameBytes := by
    rw [BitVec.toNat_ofNat, Nat.mod_eq_of_lt (by omega)]
  refine ⟨by omega, hlt, encodeFrame s, exec_encode_of_valid hv, ?_⟩
  rcases Nat.lt_or_ge s.params.outCap s.frameBytes with hover | hfits
  · rw [encodeFrame_of_overflow hover]
    exact .inr ⟨rfl, hexact⟩
  · rw [encodeFrame_of_fits hfits]
    exact .inl ⟨rfl, hexact⟩

end Sys2Proof.Machine
end

section
/-! PROOFS. 10_state.md: what the words of the bus and of the engine select, and the updates a host access can make. -/

namespace Sys2Proof.Machine

/-! ### The word of a command (30_encoding.md R78, R79) -/

theorem opcode_of_commandOf {op : Byte} {i : Instr} (h : commandOf op = some i) : op = opcode i := by
  obtain ⟨row, hfind, rfl⟩ := Option.map_eq_some_iff.mp h
  have hop : row.2 = op := by simpa using List.find?_some hfind
  have hrows : ∀ r ∈ opcodeMap, r.2 = opcode r.1 := by decide
  rw [← hop, hrows row (List.mem_of_find?_eq_some hfind)]

theorem rsvdOf_append_opcodeOf (w : Word) : rsvdOf w ++ opcodeOf w = w := by
  apply BitVec.eq_of_getLsbD_eq
  intro k hk
  simp only [rsvdOf, opcodeOf, BitVec.getLsbD_append, BitVec.getLsbD_extractLsb']
  split_ifs with h8
  · simp [h8]
  · rw [decide_eq_true (by omega), Bool.true_and]
    congr 1
    omega

/-- A word that selects a command is that command's full word. -/
theorem eq_encode_of_decodeWord {w : Word} {i : Instr} (h : decodeWord w = .command i) : w = encode i := by
  unfold decodeWord at h
  split at h
  · cases h
  · rename_i j hcommand
    split at h
    · rename_i hrsvd
      cases h
      rw [← rsvdOf_append_opcodeOf w, hrsvd, opcode_of_commandOf hcommand, encode]
    · cases h

/-! ### The register a CSR access reaches (10_state.md R22, R40; 20_memory.md R61) -/

theorem eq_csrOffset_of_csrAccessed {bytes : Nat} {offset : BitVec 12} {c : Csr}
    (h : csrAccessed bytes offset = some c) : bytes = 4 ∧ offset = csrOffset c := by
  unfold csrAccessed at h
  split at h
  · rename_i hform
    exact ⟨hform.1, csrAt_some h⟩
  · cases h

/-! ### Every host access is one of eight updates -/

/-- What one host access can make of a state, with its guard (10_state.md sections 2 and 5; 20_memory.md R59 to R65).
An ignored access is a `readValue` that reads nothing. -/
inductive HostUpdate (s : State) : State → Prop
  | readValue (reads : List Word) (draws : Nat) : HostUpdate s { s with reads := reads, draws := draws }
  | inputBytes (a : Nat) (v : Word) (n : Nat) : HostUpdate s (s.writeIn a v n)
  | control (rnd : RoundMode) (irqEn : Bool) : HostUpdate s { s with rnd := rnd, irqEn := irqEn }
  | softReset : HostUpdate s s.softReset
  | acknowledge (v : Word) : HostUpdate s (s.ackStatus v)
  | accept (idle : s.busy = false) (w : Word) : HostUpdate s (s.accept w)
  | overrun (running : s.busy = true) : HostUpdate s { s with ovr := true }
  | inputLength (v : Word) : HostUpdate s (s.writeInLen v)

theorem HostUpdate.unchanged (s : State) : HostUpdate s s := .readValue s.reads s.draws

theorem csrStore_update (v : Word) (s : State) (c : Csr) : HostUpdate s (s.csrStore v c) := by
  cases c with
  | ctrl =>
    rw [State.csrStore]
    cases hv : v.getLsbD 31 with
    | true => rw [writeCtrl_of_reset s hv]; exact .softReset
    | false => rw [writeCtrl_of_noReset s hv]; exact .control _ _
  | status => exact .acknowledge v
  | cmd =>
    rw [State.csrStore, State.issue]
    split
    · exact .overrun ‹_›
    · exact .accept (by simpa using ‹¬s.busy = true›) v
  | inLen => exact .inputLength v
  | _ => exact .unchanged s

theorem hostAccess_update (x : HostAccess) (s : State) : HostUpdate s (hostAccess x s) := by
  cases x with
  | csrRead bytes offset => exact .readValue _ s.draws
  | csrWrite bytes offset v =>
    rw [hostAccess, State.csrWrite]
    split
    · exact csrStore_update v s _
    · exact .unchanged s
  | inRead n a => exact .readValue _ s.draws
  | inWrite n a v => exact .inputBytes a v n.bytes
  | outRead n a =>
    rw [hostAccess, State.spendDraws]
    split
    · exact .readValue _ _
    · exact .readValue _ s.draws
  | outWrite n a v => exact .unchanged s

/-- The plan is the environment's: no host access changes it (log entry 5). -/
theorem HostUpdate.schedule_eq {s t : State} (h : HostUpdate s t) : t.schedule = s.schedule := by
  cases h with
  | inputBytes a v n => rw [writeIn_frame]
  | _ => rfl

end Sys2Proof.Machine
end

section
/-! PROOFS. 10_state.md, 40_codec.md, 60_exceptions.md: every step keeps the invariant of the machine. -/

namespace Sys2Proof.Machine

open Sys2Proof.Claims

/-! ### What DECODE has checked when it commits (40_codec.md R95 to R100) -/

/-- The checks of DECODE pass exactly on an acceptable input: where a check fails, the clause of `Acceptable` that it
tests is false. -/
theorem decodeError_eq_none_iff (s : State) :
    decodeError s = none ↔ Acceptable s.decodeByte s.pend.inLen.toNat s.params.pixCap := by
  simp only [decodeError, Acceptable, State.inWidth, State.inHeight, State.inW, State.inH, State.inNeed]
  split_ifs <;> grind

/-- A check that fails has an error code (60_exceptions.md R153). -/
theorem decodeError_code_ne_none {s : State} {e : ErrCode} {info : Nat} (h : decodeError s = some (e, info)) :
    e ≠ .none := by
  rintro rfl
  simp only [decodeError] at h
  split_ifs at h <;> simp at h

/-! ### Header fields depend on the bytes they are read from -/

theorem le16_congr {A B : Nat → Byte} {n o : Nat} (h : ∀ i, i < n → A i = B i) (ho : o + 1 < n) :
    le16 A o = le16 B o := by
  simp only [le16, h o (by omega), h (o + 1) ho]

theorem le32_congr {A B : Nat → Byte} {n o : Nat} (h : ∀ i, i < n → A i = B i) (ho : o + 3 < n) :
    le32 A o = le32 B o := by
  simp only [le32, h o (by omega), h (o + 1) (by omega), h (o + 2) (by omega), h (o + 3) ho]

theorem sle32_congr {A B : Nat → Byte} {n o : Nat} (h : ∀ i, i < n → A i = B i) (ho : o + 3 < n) :
    sle32 A o = sle32 B o := by
  simp only [sle32, le32_congr h ho]

/-! ### The commit of an acceptable frame -/

theorem headerShown_commitFrame {s : State} (hw : 0 ≤ sle32 s.decodeByte 18) : HeaderShown (commitFrame s) := by
  have hbytes : ∀ i, i < 54 → (commitFrame s).hdrByte i = s.decodeByte i := fun i hi => commitFrame_hdrByte s hi
  constructor
  · rw [commitFrame_width, sle32_congr hbytes (by decide)]
    exact Int.toNat_of_nonneg hw
  · rw [commitFrame_height, sle32_congr hbytes (by decide)]
    rfl
  · rw [commitFrame_padding, commitFrame_width]

theorem frameHeld_commitFrame {s : State} (h : Acceptable s.decodeByte s.pend.inLen.toNat s.params.pixCap) :
    FrameHeld (commitFrame s) := by
  have hbytes : ∀ i, i < 54 → (commitFrame s).hdrByte i = s.decodeByte i := fun i hi => commitFrame_hdrByte s hi
  obtain ⟨-, hsignature, hoffset, hsize, hbits, hcompression, -, hfits, -⟩ := h
  constructor
  · rw [le16_congr hbytes (by decide), hsignature]
  · rw [le32_congr hbytes (by decide), hoffset]
  · rw [le32_congr hbytes (by decide), hsize]
  · rw [le16_congr hbytes (by decide), hbits]
  · rw [le32_congr hbytes (by decide), hcompression]
  · rw [commitFrame_width, commitFrame_height]
    exact hfits
  · rw [commitFrame_pix, pixelGrid_length, commitFrame_width, commitFrame_height]

/-! ### The parts of the invariant under each update of a running command (60_exceptions.md R150, R151) -/

theorem Inv.commitFrame {s : State} (h : Inv s) (ha : Acceptable s.decodeByte s.pend.inLen.toNat s.params.pixCap) :
    Inv (commitFrame s) where
  params := h.params
  header := by
    obtain ⟨-, -, -, -, -, -, hwidth, -, -⟩ := ha
    exact headerShown_commitFrame hwidth
  frame _ := frameHeld_commitFrame ha
  report := { h.report with }
  memories := { h.memories with }
  lengths := { h.lengths with }

theorem Inv.storeFrame {s : State} (h : Inv s) (hv : s.valid = true) (hfits : s.frameBytes ≤ s.params.outCap) :
    Inv (storeFrame s) where
  params := h.params
  header := { h.header with }
  frame _ := { h.frame hv with }
  report := { h.report with }
  memories := { h.memories with outMem := wf_fill _ _ h.memories.outMem hfits }
  lengths := { h.lengths with
    outLen := by
      have hlen := h.frameBytes_lt hv
      rw [storeFrame_outLen, BitVec.toNat_ofNat, Nat.mod_eq_of_lt (by omega)]
      exact hfits }

theorem Inv.replacePixels {s : State} (h : Inv s) (f : Nat → Nat → Pixel) : Inv (s.replacePixels f) where
  params := h.params
  header := { h.header with }
  frame hv := { h.frame hv with cells := pixelGrid_length _ _ _ }
  report := { h.report with }
  memories := { h.memories with }
  lengths := { h.lengths with }

theorem Inv.complete {s : State} (h : Inv s) (hb : s.busy = true) : Inv s.complete := by
  obtain ⟨-, hnoError, hnoCode⟩ := h.report.runningHasNoReport hb
  exact {
    params := h.params
    header := { h.header with }
    frame := fun hv => { h.frame hv with }
    report := {
      oneReport := by simp [hnoError]
      errorHasCode := by simp [hnoError]
      doneHasNoCode := fun _ => hnoCode
      noCodeNoInfo := h.report.noCodeNoInfo
      runningHasNoReport := by simp
      runningShowsOpcode := by simp }
    memories := { h.memories with raced := rfl, racedOnlyInDecode := fun _ => rfl }
    lengths := { h.lengths with pendInLen := by simp } }

theorem Inv.raise {s : State} (h : Inv s) (hb : s.busy = true) (cmd : Option Instr) {e : ErrCode} (he : e ≠ .none)
    (info : Nat) : Inv (s.raise cmd e info) := by
  obtain ⟨hnotDone, -, -⟩ := h.report.runningHasNoReport hb
  exact {
    params := h.params
    header := { h.header with }
    frame := fun hv => by
      have hvalid : s.valid = true := by
        rw [State.raise_valid] at hv
        split at hv
        · cases hv
        · exact hv
      exact { h.frame hvalid with }
    report := {
      oneReport := by simp [hnotDone]
      errorHasCode := fun _ => he
      doneHasNoCode := by simp [hnotDone]
      noCodeNoInfo := fun hcode => absurd hcode he
      runningHasNoReport := by simp
      runningShowsOpcode := by simp }
    memories := { h.memories with raced := rfl, racedOnlyInDecode := fun _ => rfl }
    lengths := { h.lengths with
      pendInLen := by simp
      outLen := by
        rw [State.raise_outLen]
        split
        · exact Nat.zero_le _
        · exact h.lengths.outLen } }

theorem Inv.encodeFrame {s : State} (h : Inv s) (hb : s.busy = true) (hv : s.valid = true) : Inv (encodeFrame s) := by
  rcases Nat.lt_or_ge s.params.outCap s.frameBytes with hover | hfits
  · rw [encodeFrame_of_overflow hover]
    exact h.raise hb _ (by decide) _
  · rw [encodeFrame_of_fits hfits]
    exact (h.storeFrame hv hfits).complete hb

/-- Each command in flight keeps the invariant. -/
theorem Inv.exec {i : Instr} {s t : State} (h : Inv s) (hb : s.busy = true) (ht : exec i s = .next t) : Inv t := by
  rcases exec_cases ht with
    ⟨-, hchecks, rfl⟩ | ⟨-, e, info, hfails, rfl⟩ | ⟨-, -, rfl⟩ | ⟨-, hv, rfl⟩ | ⟨-, -, -, f, rfl⟩
  · exact (h.commitFrame ((decodeError_eq_none_iff s).mp hchecks)).complete hb
  · exact h.raise hb _ (decodeError_code_ne_none hfails) _
  · exact h.raise hb _ (by decide) _
  · exact h.encodeFrame hb hv
  · exact (h.replacePixels f).complete hb

/-! ### The invariant under the host's updates -/

/-- `Inv` reads none of these fields: RND, IRQ_EN, OVR and the model's own counters, plan and read values. -/
theorem Inv.of_unread {s : State} (h : Inv s) (rnd : RoundMode) (irqEn ovr : Bool) (epoch draws : Nat)
    (schedule : List Turn) (reads : List Word) :
    Inv { s with
      rnd := rnd, irqEn := irqEn, ovr := ovr, epoch := epoch, draws := draws, schedule := schedule
      reads := reads } where
  params := h.params
  header := { h.header with }
  frame hv := { h.frame hv with }
  report := { h.report with }
  memories := { h.memories with }
  lengths := { h.lengths with }

theorem Inv.ackStatus {s : State} (h : Inv s) (v : Word) : Inv (s.ackStatus v) where
  params := h.params
  header := { h.header with }
  frame hv := { h.frame hv with }
  report := { h.report with
    oneReport := fun hboth =>
      h.report.oneReport ⟨Bool.and_elim_left hboth.1, Bool.and_elim_left hboth.2⟩
    errorHasCode := fun he => h.report.errorHasCode (Bool.and_elim_left he)
    doneHasNoCode := fun hd => h.report.doneHasNoCode (Bool.and_elim_left hd)
    runningHasNoReport := fun hb => by
      obtain ⟨hnotDone, hnoError, hnoCode⟩ := h.report.runningHasNoReport hb
      simp [hnotDone, hnoError, hnoCode] }
  memories := { h.memories with }
  lengths := { h.lengths with }

/-- Acceptance drops the report of the command before, and latches a bounded length (10_state.md R44, R45). -/
theorem Inv.accept {s : State} (h : Inv s) (w : Word) : Inv (s.accept w) where
  params := h.params
  header := { h.header with }
  frame hv := { h.frame hv with }
  report := {
    oneReport := by simp
    errorHasCode := by simp
    doneHasNoCode := by simp
    noCodeNoInfo := fun _ => rfl
    runningHasNoReport := fun _ => ⟨rfl, rfl, rfl⟩
    runningShowsOpcode := fun _ => rfl }
  memories := { h.memories with raced := rfl, racedOnlyInDecode := fun _ => rfl }
  lengths := { h.lengths with pendInLen := fun _ => h.lengths.inLen }

theorem Inv.writeInLen {s : State} (h : Inv s) (v : Word) : Inv (s.writeInLen v) where
  params := h.params
  header := { h.header with }
  frame hv := { h.frame hv with }
  report := { h.report with }
  memories := { h.memories with }
  lengths := { h.lengths with inLen := by rw [writeInLen_toNat]; exact Nat.min_le_right _ _ }

theorem MemoriesCanonical.writeInByte {s : State} (h : MemoriesCanonical s) (a : Nat) (b : Byte) :
    MemoriesCanonical (s.writeInByte a b) := by
  rw [State.writeInByte]
  split
  · rename_i ha
    have hin := wf_put a b h.inMem ha
    split
    · rename_i hdecode
      exact {
        inMem := hin
        outMem := h.outMem
        raced := wf_put _ _ h.raced ha
        racedOnlyInDecode := fun hno => nomatch hdecode.symm.trans hno }
    · exact { h with inMem := hin }
  · exact h

theorem Inv.writeInByte {s : State} (h : Inv s) (a : Nat) (b : Byte) : Inv (s.writeInByte a b) := by
  have hmem := h.memories.writeInByte a b
  rw [writeInByte_frame] at hmem ⊢
  exact {
    params := h.params
    header := { h.header with }
    frame := fun hv => { h.frame hv with }
    report := { h.report with }
    memories := hmem
    lengths := { h.lengths with } }

theorem Inv.writeIn {s : State} (h : Inv s) (a : Nat) (v : Word) (n : Nat) : Inv (s.writeIn a v n) := by
  induction n with
  | zero => exact h
  | succ n ih => exact ih.writeInByte (a + n) (byteOf v n)

/-! ### The invariant after a reset -/

/-- The header of a reset state is 54 zero bytes, so all its fields are 0 (10_state.md R51). -/
theorem headerShown_of_zero {s : State} (hw : s.width = 0#32) (hh : s.height = 0#32) (hp : s.padding = 0#2)
    (hzero : ∀ i, s.hdrByte i = 0#8) : HeaderShown s := by
  have hfield : ∀ o, sle32 s.hdrByte o = 0 := by intro o; simp [sle32, le32, hzero]
  constructor
  · rw [hw, hfield]; rfl
  · rw [hh, hfield]; rfl
  · rw [hp, hw]; rfl

theorem hdrByte_of_replicate {s : State} (h : s.hdr = Vector.replicate 54 0#8) (i : Nat) : s.hdrByte i = 0#8 := by
  simp [State.hdrByte, h]

/-- Reset registers under legal parameters and over canonical memories meet the invariant, whatever the model's own
counters, plan and read values are. -/
theorem inv_of_reset {p : Config.Params} (hp : p.wf = true) {inMem outMem : Memory}
    (hin : Memory.wf p.inCap inMem = true) (hout : Memory.wf p.outCap outMem = true) (epoch draws : Nat)
    (schedule : List Turn) (reads : List Word) :
    Inv { State.reset with
      params := p, inMem := inMem, outMem := outMem, epoch := epoch, draws := draws, schedule := schedule
      reads := reads } where
  params := hp
  header := headerShown_of_zero rfl rfl rfl (hdrByte_of_replicate rfl)
  frame hv := nomatch hv
  report := by constructor <;> simp [State.reset]
  memories := ⟨hin, hout, rfl, fun _ => rfl⟩
  lengths := ⟨Nat.zero_le _, fun _ => Nat.zero_le _, Nat.zero_le _⟩

theorem wf_abandonedOut {s : State} (h : Memory.wf s.params.outCap s.outMem = true) :
    Memory.wf s.params.outCap s.abandonedOut = true := by
  rw [State.abandonedOut]
  split
  · exact wf_fill _ _ h (Nat.min_le_right _ _)
  · exact h

theorem Inv.softReset {s : State} (h : Inv s) : Inv s.softReset :=
  inv_of_reset h.params h.memories.inMem (wf_abandonedOut h.memories.outMem) _ _ _ _

theorem Inv.hardwareReset {s : State} (h : Inv s) : Inv s.hardwareReset :=
  inv_of_reset h.params (wf_nil _) (wf_nil _) _ _ _ _

/-- Settles O47: the reset registers, over empty memories. -/
theorem resetMeetsInvariant : Obligations.ResetMeetsInvariant := fun _ hp =>
  inv_of_reset hp (wf_nil _) (wf_nil _) _ _ _ _

/-! ### Every step -/

theorem Inv.hostUpdate {s t : State} (h : Inv s) (ht : HostUpdate s t) : Inv t := by
  cases ht with
  | readValue reads draws => exact h.of_unread _ _ _ _ _ _ _
  | inputBytes a v n => exact h.writeIn a v n
  | control rnd irqEn => exact h.of_unread _ _ _ _ _ _ _
  | softReset => exact h.softReset
  | acknowledge v => exact h.ackStatus v
  | accept _ w => exact h.accept w
  | overrun _ => exact h.of_unread _ _ _ _ _ _ _
  | inputLength v => exact h.writeInLen v

/-- The state in which the engine moves is the state itself but for the plan. -/
theorem engineMoves_eq {s u : State} (h : engineMoves s u) : ∃ rest, u = { s with schedule := rest } := by
  rcases h with ⟨-, rfl⟩ | ⟨rest, -, rfl⟩
  · exact ⟨_, rfl⟩
  · exact ⟨rest, rfl⟩

theorem Inv.planned {s : State} (h : Inv s) (rest : List Turn) : Inv { s with schedule := rest } :=
  h.of_unread _ _ _ _ _ rest _

/-- Settles O48: the step is a wait, a command in flight, an illegal word, one host update or a reset, and each keeps
the invariant. -/
theorem stepKeepsInvariant : Obligations.StepKeepsInvariant := by
  intro s t hinv hstep
  rcases step_cases hstep with ⟨u, hmoves, hturn⟩ | ⟨x, rest, -, rfl⟩ | ⟨rest, -, rfl⟩
  · obtain ⟨rest, rfl⟩ := engineMoves_eq hmoves
    rcases hturn with ⟨-, rfl⟩ | ⟨hb, i, -, hexec⟩ | ⟨hb, -, rfl⟩
    · exact hinv.planned rest
    · exact (hinv.planned rest).exec hb hexec
    · exact (hinv.planned rest).raise hb none (by decide) _
  · exact (hinv.planned rest).hostUpdate (hostAccess_update x _)
  · exact (hinv.planned rest).hardwareReset

end Sys2Proof.Machine
end

section
/-! PROOFS. 10_state.md R47 to R49: every step answers, the engine runs what its word selects, a command completes. -/

namespace Sys2Proof.Machine

/-! ### The engine's turn -/

theorem exec_answers_next (i : Instr) (s : State) : ∃ t, exec i s = .next t := by
  cases i <;> exact ⟨_, rfl⟩

theorem engineTurn_idle {s : State} (h : s.busy = false) : engineTurn s = .next s := by simp [engineTurn, h]

theorem engineTurn_busy {s : State} (h : s.busy = true) : engineTurn s = execute s := by simp [engineTurn, h]

theorem execute_command {s : State} {i : Instr} (h : decodeWord s.pend.word = .command i) : execute s = exec i s := by
  simp [execute, h]

theorem execute_rejected {s : State} {why : Rejection} (h : decodeWord s.pend.word = .rejected why) :
    execute s = .next (s.raise none .illegalCommand s.pend.word.toNat) := by
  simp [execute, h]

theorem engineMoves_busy {s u : State} (h : engineMoves s u) : u.busy = s.busy := by
  obtain ⟨rest, rfl⟩ := engineMoves_eq h
  rfl

theorem engineMoves_pend {s u : State} (h : engineMoves s u) : u.pend = s.pend := by
  obtain ⟨rest, rfl⟩ := engineMoves_eq h
  rfl

theorem engineTurn_answers_next (s : State) : ∃ t, engineTurn s = .next t := by
  cases hb : s.busy with
  | false => exact ⟨s, engineTurn_idle hb⟩
  | true =>
    rw [engineTurn_busy hb]
    cases hd : decodeWord s.pend.word with
    | command i =>
      rw [execute_command hd]
      exact exec_answers_next i s
    | rejected why => exact ⟨_, execute_rejected hd⟩

/-- The engine waits, runs the latched command or fails an illegal word. -/
theorem engineTurn_cases {s t : State} (h : engineTurn s = .next t) :
    (s.busy = false ∧ t = s) ∨
    (s.busy = true ∧ ∃ i, decodeWord s.pend.word = .command i ∧ exec i s = .next t) ∨
    (s.busy = true ∧ ∃ why, decodeWord s.pend.word = .rejected why ∧
      t = s.raise none .illegalCommand s.pend.word.toNat) := by
  cases hb : s.busy with
  | false =>
    rw [engineTurn_idle hb] at h
    cases h
    exact .inl ⟨rfl, rfl⟩
  | true =>
    rw [engineTurn_busy hb] at h
    cases hd : decodeWord s.pend.word with
    | command i =>
      rw [execute_command hd] at h
      exact .inr (.inl ⟨rfl, i, rfl, h⟩)
    | rejected why =>
      rw [execute_rejected hd] at h
      cases h
      exact .inr (.inr ⟨rfl, why, rfl, rfl⟩)

/-- The engine's turn leaves no command running, and leaves the parameters, the controls and the plan. -/
theorem engineTurn_keeps {s t : State} (h : engineTurn s = .next t) :
    t.busy = false ∧ t.params = s.params ∧ t.rnd = s.rnd ∧ t.irqEn = s.irqEn ∧ t.inLen = s.inLen ∧
    t.schedule = s.schedule := by
  rcases engineTurn_cases h with ⟨hb, rfl⟩ | ⟨-, i, -, hexec⟩ | ⟨-, why, -, rfl⟩
  · exact ⟨hb, rfl, rfl, rfl, rfl, rfl⟩
  · obtain ⟨hidle, -, hparams, hrnd, hirq, -, -, hinLen, -, -, -, -, hplan, -⟩ := exec_keeps hexec
    exact ⟨hidle, hparams, hrnd, hirq, hinLen, hplan⟩
  · exact ⟨rfl, rfl, rfl, rfl, rfl, rfl⟩

theorem engineTurn_completes (s : State) : ∃ t, engineTurn s = .next t ∧ t.busy = false ∧ t.schedule = s.schedule := by
  obtain ⟨t, ht⟩ := engineTurn_answers_next s
  obtain ⟨hidle, -, -, -, -, hplan⟩ := engineTurn_keeps ht
  exact ⟨t, ht, hidle, hplan⟩

/-- Settles O4: the step is the engine's turn, which executes what the latched word decodes to. -/
theorem stepRunsDecodedCommand : Obligations.StepRunsDecodedCommand := by
  intro s u i hmoves hb hd
  rw [← engineMoves_busy hmoves] at hb
  rw [← engineMoves_pend hmoves] at hd
  rw [step_of_engineMoves hmoves, engineTurn_busy hb, execute_command hd]

/-- Settles O6: with BUSY = 0 the engine's turn waits. -/
theorem engineWaitsForCommand : Obligations.EngineWaitsForCommand := by
  intro s u hmoves hb
  rw [← engineMoves_busy hmoves] at hb
  rw [step_of_engineMoves hmoves, engineTurn_idle hb]

/-! ### Planned turns -/

/-- Every turn answers a next state and leaves the rest of the plan. -/
theorem takeTurn_answers_next (turn : Turn) (s : State) :
    ∃ t, takeTurn turn s = .next t ∧ t.schedule = s.schedule := by
  cases turn with
  | host x => exact ⟨_, rfl, (hostAccess_update x s).schedule_eq⟩
  | engine =>
    obtain ⟨t, ht, -, hplan⟩ := engineTurn_completes s
    exact ⟨t, ht, hplan⟩
  | hardwareReset => exact ⟨_, rfl, rfl⟩

/-- Settles O7: the step is the engine's turn or a planned one, and each answers a next state. -/
theorem everyStepAnswersNext : Obligations.EveryStepAnswersNext := by
  intro s
  cases hplan : s.schedule with
  | nil =>
    obtain ⟨t, ht⟩ := engineTurn_answers_next s
    exact ⟨t, by rw [step_of_idle_plan hplan, ht]⟩
  | cons turn rest =>
    obtain ⟨t, ht, -⟩ := takeTurn_answers_next turn { s with schedule := rest }
    exact ⟨t, by rw [step_of_turn hplan, ht]⟩

theorem steps_of_step {s t : State} (n : Nat) (h : step s = .next t) : steps (n + 1) s = steps n t := by
  simp [steps, h]

/-- By induction on the plan: each planned turn shortens it, and the engine's last turn ends the command. -/
theorem steps_complete_of_plan (plan : List Turn) {s : State} (hplan : s.schedule = plan) :
    ∃ t, steps (plan.length + 1) s = .next t ∧ t.busy = false ∧ t.schedule = [] := by
  induction plan generalizing s with
  | nil =>
    obtain ⟨t, ht, hidle, hrest⟩ := engineTurn_completes s
    exact ⟨t, steps_of_step 0 (by rw [step_of_idle_plan hplan, ht]), hidle, hrest.trans hplan⟩
  | cons turn rest ih =>
    obtain ⟨t, ht, hrest⟩ := takeTurn_answers_next turn { s with schedule := rest }
    rw [List.length_cons, steps_of_step _ (by rw [step_of_turn hplan, ht])]
    exact ih hrest

/-- Settles O8: the plan of the state is the list to induct on. -/
theorem acceptedCommandCompletes : Obligations.AcceptedCommandCompletes := fun _ => steps_complete_of_plan _ rfl

end Sys2Proof.Machine
end

section
/-! PROOFS. 10_state.md R22 to R40, R45, R46: the writes and the reads of the registers. -/

namespace Sys2Proof.Machine

/-! ### One host access as a step -/

theorem step_of_host {s : State} {x : HostAccess} {rest : List Turn} (h : s.schedule = .host x :: rest) :
    step s = .next (hostAccess x { s with schedule := rest }) := step_of_turn h

/-- Settles O10: with BUSY = 0 a CMD write is an acceptance. -/
theorem commandAcceptance : Obligations.CommandAcceptance := by
  intro s v rest hb hplan
  rw [step_of_host hplan, hostAccess, csrWrite_cmd, State.issue, if_neg (by simp [hb])]
  rfl

/-- Settles O11: with BUSY = 1 a CMD write only sets OVR. -/
theorem commandOverrun : Obligations.CommandOverrun := by
  intro s v rest hb hplan
  rw [step_of_host hplan, hostAccess, csrWrite_cmd, State.issue, if_pos hb]

/-! ### Writes of CTRL, STATUS and IN_LEN -/

/-- The four patterns of bits 1:0 (10_state.md R25). -/
theorem rndWritten_patterns (bits : BitVec 2) (old : RoundMode) :
    (bits = 0b00#2 → rndWritten bits old = .halfUp) ∧ (bits = 0b01#2 → rndWritten bits old = .trunc) ∧
    (bits = 0b10#2 → rndWritten bits old = .halfEven) ∧ (bits = 0b11#2 → rndWritten bits old = old) := by
  refine ⟨?_, ?_, ?_, ?_⟩ <;> (rintro rfl; rfl)

/-- Settles O12: the write sets IRQ_EN and one of the four patterns of RND. -/
theorem ctrlWrite : Obligations.CtrlWrite := by
  intro s v rest hv hplan
  refine ⟨_, step_of_host hplan, ?_⟩
  rw [hostAccess, csrWrite_ctrl, writeCtrl_of_noReset _ hv]
  exact ⟨rfl, rndWritten_patterns _ s.rnd⟩

/-- Settles O13: each flag is and-ed with the complement of its bit. -/
theorem statusWriteOneToClear : Obligations.StatusWriteOneToClear := by
  intro s v rest hplan
  refine ⟨_, step_of_host hplan, ?_⟩
  rw [hostAccess, csrWrite_status]
  refine ⟨rfl, ?_, ?_, ?_⟩ <;> simp only [State.ackStatus_done, State.ackStatus_error, State.ackStatus_ovr,
    Bool.and_eq_true, Bool.not_eq_true']

/-- Settles O14: the stored minimum is below 2^32, so it is stored exactly. -/
theorem inLenWriteIsCapped : Obligations.InLenWriteIsCapped := by
  intro s v rest hplan
  refine ⟨_, step_of_host hplan, ?_⟩
  rw [hostAccess, csrWrite_inLen]
  exact ⟨rfl, writeInLen_toNat _ v, rfl⟩

/-! ### Ignored writes and empty reads -/

/-- The registers lie below 0x034, and the header window from 0x100 to 0x134 (10_state.md R22). -/
theorem csrOffset_range (c : Csr) :
    (csrOffset c).toNat ≤ 0x030 ∨ 0x100 ≤ (csrOffset c).toNat ∧ (csrOffset c).toNat ≤ 0x134 := by
  cases c with
  | hdr k => revert k; decide
  | _ => decide

/-- ID and every register from 0x014 on are read-only (10_state.md R22). -/
theorem csrStore_readOnly (v : Word) (s : State) {c : Csr}
    (h : csrOffset c = 0x000#12 ∨ 0x014 ≤ (csrOffset c).toNat) : s.csrStore v c = s := by
  cases c with
  | ctrl | status | cmd | inLen => exact absurd h (by decide)
  | _ => rfl

theorem csrWrite_ignored (s : State) (bytes : Nat) (offset : BitVec 12) (v : Word)
    (h : bytes ≠ 4 ∨ offset.toNat % 4 ≠ 0 ∨ offset = 0x000#12 ∨ 0x014 ≤ offset.toNat) :
    s.csrWrite bytes offset v = s := by
  rw [State.csrWrite]
  split
  · rename_i c hreached
    obtain ⟨rfl, rfl⟩ := eq_csrOffset_of_csrAccessed hreached
    rcases h with hwidth | halign | hplace
    · exact absurd rfl hwidth
    · exact absurd (csrOffset_aligned c) halign
    · exact csrStore_readOnly v s hplace
  · rfl

/-- Settles O15: the four writable registers lie at 0x004 to 0x010, and only aligned 32-bit
accesses reach a register. -/
theorem ignoredWritesChangeNothing : Obligations.IgnoredWritesChangeNothing := by
  intro s rest
  refine ⟨fun bytes offset v hplan hignored => ?_, fun n a v hplan => step_of_host hplan⟩
  rw [step_of_host hplan, hostAccess, csrWrite_ignored _ _ _ _ hignored]

theorem csrRead_of_none {s : State} {bytes : Nat} {offset : BitVec 12} (h : csrAccessed bytes offset = none) :
    s.csrRead bytes offset = 0#32 := by
  rw [State.csrRead, h]

theorem csrRead_offset (s : State) (c : Csr) : s.csrRead 4 (csrOffset c) = s.csrValue c := by
  rw [State.csrRead, csrAccessed_offset]

theorem csrRead_zero (s : State) (bytes : Nat) (offset : BitVec 12)
    (h : bytes ≠ 4 ∨ offset.toNat % 4 ≠ 0 ∨ offset = 0x00C#12 ∨ (0x034 ≤ offset.toNat ∧ offset.toNat ≤ 0x0FC) ∨
      0x138 ≤ offset.toNat) : s.csrRead bytes offset = 0#32 := by
  cases hreached : csrAccessed bytes offset with
  | none => exact csrRead_of_none hreached
  | some c =>
    obtain ⟨rfl, rfl⟩ := eq_csrOffset_of_csrAccessed hreached
    have hrange := csrOffset_range c
    rcases h with hwidth | halign | hcmd | hreserved
    · exact absurd rfl hwidth
    · exact absurd (csrOffset_aligned c) halign
    · rw [hcmd]
      rfl
    · omega

/-- Settles O16: no register lies at the offsets named, and CMD reads as 0. -/
theorem csrReadsAnswerWithoutSideEffect : Obligations.CsrReadsAnswerWithoutSideEffect := fun s bytes offset _ hplan =>
  ⟨step_of_host hplan, csrRead_zero s bytes offset⟩

/-! ### What the registers read as -/

theorem statusWord_flags (s : State) :
    (statusWord s).getLsbD 1 = s.done ∧ (statusWord s).getLsbD 3 = s.valid ∧ (statusWord s).getLsbD 4 = s.ovr := by
  refine ⟨?_, ?_, ?_⟩ <;> (simp only [statusWord, BitVec.getLsbD_append]; simp)

theorem statusWord_lastOp (s : State) : (statusWord s).extractLsb' 8 8 = s.lastOp := by
  simp only [statusWord, BitVec.extractLsb'_append_eq_ite]
  simp

theorem statusWord_errCode (s : State) : (statusWord s).extractLsb' 16 8 = errNumber s.errCode := by
  simp only [statusWord, BitVec.extractLsb'_append_eq_ite]
  simp

theorem statusWord_reserved (s : State) :
    (statusWord s).extractLsb' 5 3 = 0#3 ∧ (statusWord s).extractLsb' 24 8 = 0#8 := by
  refine ⟨?_, ?_⟩ <;> (simp only [statusWord, BitVec.extractLsb'_append_eq_ite]; simp)

/-- Settles O17: the fields of `statusWord`, one by one. -/
theorem statusReadLayout : Obligations.StatusReadLayout := by
  intro s
  have hread : s.csrRead 4 0x008#12 = statusWord s := csrRead_offset s .status
  rw [hread]
  obtain ⟨hdone, hvalid, hovr⟩ := statusWord_flags s
  obtain ⟨hlow, hhigh⟩ := statusWord_reserved s
  refine ⟨statusWord_busy s, hdone, statusWord_error s, hvalid, hovr, hlow, statusWord_lastOp s, ?_, hhigh⟩
  rw [statusWord_errCode]
  cases s.errCode <;> rfl

theorem ctrlWord_irqEn (s : State) : (ctrlWord s).getLsbD 2 = s.irqEn := by
  simp only [ctrlWord, BitVec.getLsbD_append]
  simp

theorem ctrlWord_rnd (s : State) : (ctrlWord s).extractLsb' 0 2 = rndBits s.rnd := by
  simp only [ctrlWord, BitVec.extractLsb'_append_eq_ite]
  simp

theorem ctrlWord_reserved (s : State) : (ctrlWord s).extractLsb' 3 29 = 0#29 := by
  simp only [ctrlWord, BitVec.extractLsb'_append_eq_ite]
  simp

/-- What PADDING reads as (10_state.md R36). -/
theorem paddingWord_fields (p : BitVec 2) :
    (0#30 ++ p).extractLsb' 0 2 = p ∧ (0#30 ++ p).extractLsb' 2 30 = 0#30 := by
  refine ⟨?_, ?_⟩ <;> (simp only [BitVec.extractLsb'_append_eq_ite]; simp)

/-- Settles O18: the fields of CTRL and PADDING, and the registers read as held. -/
theorem registerReads : Obligations.RegisterReads := by
  intro s
  have hread : s.csrRead 4 0x004#12 = ctrlWord s := csrRead_offset s .ctrl
  rw [hread, ctrlWord_rnd]
  obtain ⟨hvalue, hreserved⟩ := paddingWord_fields s.padding
  refine ⟨ctrlWord_reserved s, ctrlWord_irqEn s, ?_, rfl, rfl, rfl, hvalue, hreserved, rfl⟩
  cases s.rnd <;> rfl

/-- Settles O19: HDR0 to HDR12 are little-endian words of four header bytes, HDR13 of two. -/
theorem headerWindowReads : Obligations.HeaderWindowReads := by
  intro s k j hk hj
  have hread : s.csrRead 4 (BitVec.ofNat 12 (0x100 + 4 * k)) = s.csrValue (.hdr ⟨k, hk⟩) :=
    csrRead_offset s (.hdr ⟨k, hk⟩)
  rw [hread, State.csrValue]
  by_cases hlast : k = 13
  · subst hlast
    rw [if_pos rfl, le16_eq_littleEndian]
    refine (byteOf_littleEndian _ 2 j (by decide) hj).trans ?_
    simp only [show 4 * 13 + j < 54 ↔ j < 2 by omega]
  · rw [if_neg hlast, le32_eq_littleEndian, if_pos (by omega)]
    exact (byteOf_littleEndian _ 4 j (by decide) hj).trans (if_pos hj)

/-! ### The constants (10_state.md R23, R38) -/

theorem HostUpdate.params_eq {s t : State} (h : HostUpdate s t) : t.params = s.params := by
  cases h with
  | inputBytes a v n => exact writeIn_params s a v n
  | _ => rfl

theorem step_params {s t : State} (h : step s = .next t) : t.params = s.params := by
  rcases step_cases h with ⟨u, hmoves, hturn⟩ | ⟨x, rest, -, rfl⟩ | ⟨rest, -, rfl⟩
  · obtain ⟨rest, rfl⟩ := engineMoves_eq hmoves
    rcases hturn with ⟨-, rfl⟩ | ⟨-, i, -, hexec⟩ | ⟨-, -, rfl⟩
    · rfl
    · obtain ⟨-, -, hparams, -⟩ := exec_keeps hexec
      exact hparams
    · rfl
  · exact (hostAccess_update x _).params_eq
  · rfl

theorem caps_lt_of_wf {p : Config.Params} (h : p.wf = true) :
    p.inCap < 2 ^ 32 ∧ p.outCap < 2 ^ 32 ∧ p.pixCap < 2 ^ 32 := by
  simp only [Config.Params.wf, Bool.and_eq_true, decide_eq_true_eq] at h
  omega

/-- Settles O20: every step keeps the parameters, and legal capacities fit 32 bits. -/
theorem identityAndCapacitiesConstant : Obligations.IdentityAndCapacitiesConstant := by
  refine ⟨fun _ => rfl, fun _ _ => step_params, fun s hwf => ?_⟩
  obtain ⟨hin, hout, hpix⟩ := caps_lt_of_wf hwf
  exact ⟨Nat.mod_eq_of_lt hin, Nat.mod_eq_of_lt hout, Nat.mod_eq_of_lt hpix⟩

end Sys2Proof.Machine
end

section
/-! PROOFS. 10_state.md R27, R33 to R44, R51: the resets, and which steps change the frame, VALID and the output. -/

namespace Sys2Proof.Machine

open Sys2Proof.Claims

/-! ### The resets -/

theorem irq_of_disabled {s : State} (h : s.irqEn = false) : s.irq = false := by simp [State.irq, h]

/-- Settles O41: every register of a hardware reset is that of `State.reset`. -/
theorem hardwareResetValues : Obligations.HardwareResetValues := by
  intro s rest hplan
  exact ⟨_, step_of_turn hplan, rfl, rfl, rfl, rfl, rfl, rfl, rfl, rfl, rfl, rfl, rfl, rfl, rfl, rfl, rfl, rfl, rfl,
    hdrByte_of_replicate rfl, irq_of_disabled rfl⟩

theorem csrRead_ctrl_of_reset {s : State} (hrnd : s.rnd = .halfUp) (hirq : s.irqEn = false) :
    s.csrRead 4 0x004#12 = 0#32 := by
  have hread : s.csrRead 4 0x004#12 = ctrlWord s := csrRead_offset s .ctrl
  rw [hread, ctrlWord, hrnd, hirq]
  decide

/-- Settles O42: the write is a soft reset, whose only free bytes are those of an abandoned ENCODE. -/
theorem softResetValues : Obligations.SoftResetValues := by
  intro s v rest hplan hv
  refine ⟨_, step_of_host hplan, ?_⟩
  rw [hostAccess, csrWrite_ctrl, writeCtrl_of_reset _ hv]
  refine ⟨rfl, rfl, rfl, rfl, rfl, rfl, rfl, rfl, rfl, rfl, rfl, rfl, rfl, rfl, rfl, rfl, rfl, hdrByte_of_replicate rfl,
    irq_of_disabled rfl, csrRead_ctrl_of_reset rfl rfl, fun a => inByte_congr rfl rfl rfl a, fun a hkept => ?_⟩
  rw [outByte_softReset, if_neg fun hlost => hkept ⟨hlost.1, hlost.2.1, hlost.2.2.1⟩]
  rfl

/-! ### Which steps change the frame and the output -/

/-- The two states show the same frame and the same output. -/
structure SameFrameAndOutput (s t : State) : Prop where
  params : t.params = s.params
  epoch : t.epoch = s.epoch
  hdr : t.hdr = s.hdr
  width : t.width = s.width
  height : t.height = s.height
  padding : t.padding = s.padding
  pix : t.pix = s.pix
  valid : t.valid = s.valid
  outLen : t.outLen = s.outLen
  outMem : t.outMem = s.outMem

/-- A step that is no reset and executes no command shows the same frame and output. -/
theorem step_frame_cases {s t : State} (h : step s = .next t) :
    (resetsNow s ∧ t.valid = false) ∨ SameFrameAndOutput s t ∨
    ∃ i rest, executesNow s (encode i) ∧ exec i { s with schedule := rest } = .next t := by
  rcases step_cases h with ⟨u, hmoves, hturn⟩ | ⟨x, rest, hplan, rfl⟩ | ⟨rest, hplan, rfl⟩
  · obtain ⟨rest, rfl⟩ := engineMoves_eq hmoves
    rcases hturn with ⟨-, rfl⟩ | ⟨hb, i, hword, hexec⟩ | ⟨-, -, rfl⟩
    · exact .inr (.inl (by constructor <;> rfl))
    · exact .inr (.inr ⟨i, rest, ⟨⟨_, hmoves⟩, hb, eq_encode_of_decodeWord hword⟩, hexec⟩)
    · exact .inr (.inl (by constructor <;> rfl))
  · rcases hostAccess_cases x { s with schedule := rest } with
      ⟨hhdr, hwidth, hheight, hpadding, hpix, hvalid, houtLen, houtMem, hepoch, hparams⟩ | ⟨v, rfl, hv, hreset⟩
    · exact .inr (.inl ⟨hparams, hepoch, hhdr, hwidth, hheight, hpadding, hpix, hvalid, houtLen, houtMem⟩)
    · exact .inl ⟨.inr ⟨v, rest, hplan, hv⟩, by rw [hreset]; rfl⟩
  · exact .inl ⟨.inl ⟨rest, hplan⟩, rfl⟩

/-! ### What a command can change (40_codec.md R101, R102, R109 to R111) -/

theorem encodeFrame_keeps_frame (s : State) :
    (encodeFrame s).hdr = s.hdr ∧ (encodeFrame s).width = s.width ∧ (encodeFrame s).height = s.height ∧
    (encodeFrame s).padding = s.padding ∧ (encodeFrame s).pix = s.pix ∧ (encodeFrame s).valid = s.valid := by
  unfold encodeFrame
  split <;> simp

/-- Only a DECODE that succeeds writes the frame's registers. -/
theorem exec_changes_registers {i : Instr} {s t : State} (h : exec i s = .next t)
    (hne : t.hdr ≠ s.hdr ∨ t.width ≠ s.width ∨ t.height ≠ s.height ∨ t.padding ≠ s.padding) :
    i = .decode ∧ t.valid = true ∧ t.done = true := by
  rcases exec_cases h with ⟨rfl, -, rfl⟩ | ⟨-, e, info, -, rfl⟩ | ⟨-, -, rfl⟩ | ⟨-, -, rfl⟩ | ⟨-, -, -, f, rfl⟩
  · exact ⟨rfl, rfl, rfl⟩
  · simp at hne
  · simp at hne
  · obtain ⟨hhdr, hwidth, hheight, hpadding, -⟩ := encodeFrame_keeps_frame s
    simp [hhdr, hwidth, hheight, hpadding] at hne
  · simp at hne

/-- Only a DECODE or a filter that succeeds writes PIX. -/
theorem exec_changes_pix {i : Instr} {s t : State} (h : exec i s = .next t) (hne : t.pix ≠ s.pix) :
    i ≠ .encode ∧ t.valid = true ∧ t.done = true := by
  rcases exec_cases h with ⟨rfl, -, rfl⟩ | ⟨-, e, info, -, rfl⟩ | ⟨-, -, rfl⟩ | ⟨-, -, rfl⟩ | ⟨-, hfilter, hv, f, rfl⟩
  · exact ⟨by decide, rfl, rfl⟩
  · exact absurd rfl hne
  · exact absurd rfl hne
  · obtain ⟨-, -, -, -, hpix, -⟩ := encodeFrame_keeps_frame s
    exact absurd hpix hne
  · exact ⟨hfilter, hv, rfl⟩

theorem exec_changes_valid {i : Instr} {s t : State} (h : exec i s = .next t) (hne : t.valid ≠ s.valid) :
    i = .decode ∧ (t.valid = false → t.error = true) := by
  rcases exec_cases h with ⟨rfl, -, rfl⟩ | ⟨rfl, e, info, -, rfl⟩ | ⟨hi, -, rfl⟩ | ⟨-, -, rfl⟩ | ⟨-, -, -, f, rfl⟩
  · exact ⟨rfl, fun hfalls => nomatch hfalls⟩
  · exact ⟨rfl, fun _ => rfl⟩
  · simp [hi] at hne
  · obtain ⟨-, -, -, -, -, hvalid⟩ := encodeFrame_keeps_frame s
    exact absurd hvalid hne
  · exact absurd rfl hne

theorem exec_changes_outLen {i : Instr} {s t : State} (h : exec i s = .next t) (hne : t.outLen ≠ s.outLen) :
    i = .encode := by
  rcases exec_cases h with ⟨-, -, rfl⟩ | ⟨-, e, info, -, rfl⟩ | ⟨-, -, rfl⟩ | ⟨rfl, -, -⟩ | ⟨-, -, -, f, rfl⟩
  · exact absurd rfl hne
  · exact absurd rfl hne
  · by_contra hi
    simp [hi] at hne
  · rfl
  · exact absurd rfl hne

theorem outByte_encodeFrame_changed {s : State} {a : Nat} (hne : (encodeFrame s).outByte a ≠ s.outByte a) :
    a < s.frameBytes ∧ (encodeFrame s).done = true := by
  rcases Nat.lt_or_ge s.params.outCap s.frameBytes with hover | hfits
  · rw [encodeFrame_of_overflow hover] at hne
    exact absurd rfl hne
  · rw [encodeFrame_of_fits hfits] at hne ⊢
    refine ⟨?_, rfl⟩
    by_contra habove
    exact hne ((outByte_storeFrame s hfits a).trans (if_neg habove))

theorem exec_changes_outByte {i : Instr} {s t : State} (h : exec i s = .next t) {a : Nat}
    (hne : t.outByte a ≠ s.outByte a) : i = .encode ∧ a < s.frameBytes ∧ t.done = true := by
  rcases exec_cases h with ⟨-, -, rfl⟩ | ⟨-, e, info, -, rfl⟩ | ⟨-, -, rfl⟩ | ⟨rfl, -, rfl⟩ | ⟨-, -, -, f, rfl⟩
  · exact absurd rfl hne
  · exact absurd rfl hne
  · exact absurd rfl hne
  · exact ⟨rfl, outByte_encodeFrame_changed hne⟩
  · exact absurd rfl hne

/-! ### The rules of the whole machine -/

/-- Settles O43: a step that changes the frame or PIX resets or executes a command. -/
theorem frameChangesOnlyByCommandsOrReset : Obligations.FrameChangesOnlyByCommandsOrReset := by
  intro s t hstep
  rcases step_frame_cases hstep with ⟨hreset, -⟩ | hsame | ⟨i, rest, hexecutes, hexec⟩
  · exact ⟨fun _ => .inr hreset, fun _ => .inr hreset⟩
  · refine ⟨fun hne => ?_, fun hne => absurd hsame.pix hne⟩
    simp [hsame.hdr, hsame.width, hsame.height, hsame.padding] at hne
  · refine ⟨fun hne => .inl ?_, fun hne => .inl ?_⟩
    · obtain ⟨rfl, hreport⟩ := exec_changes_registers hexec hne
      exact ⟨hexecutes, hreport⟩
    · obtain ⟨hi, hreport⟩ := exec_changes_pix hexec hne
      have hword : encode i ≠ 0x00000065#32 := by
        cases i with
        | encode => exact absurd rfl hi
        | _ => decide
      exact ⟨encode i, hexecutes, hword, hreport⟩

/-- Settles O44: a step that changes VALID resets or executes a DECODE. -/
theorem validChangesOnlyByDecodeOrReset : Obligations.ValidChangesOnlyByDecodeOrReset := by
  intro s t hstep hne
  rcases step_frame_cases hstep with hreset | hsame | ⟨i, rest, hexecutes, hexec⟩
  · exact .inr hreset
  · exact absurd hsame.valid hne
  · obtain ⟨rfl, hfalls⟩ := exec_changes_valid hexec hne
    exact .inl ⟨hexecutes, hfalls⟩

/-- Settles O45: a step that changes the output resets or executes an ENCODE. -/
theorem outputChangesOnlyByEncodeOrReset : Obligations.OutputChangesOnlyByEncodeOrReset := by
  intro s t hstep
  rcases step_frame_cases hstep with ⟨hreset, -⟩ | hsame | ⟨i, rest, hexecutes, hexec⟩
  · exact ⟨fun _ => .inr hreset, fun _ _ => .inr hreset⟩
  · exact ⟨fun hne => absurd hsame.outLen hne,
      fun a hne => absurd (outByte_congr hsame.params hsame.epoch hsame.outMem a) hne⟩
  · refine ⟨fun hne => .inl ?_, fun a hne => .inl ?_⟩
    · obtain rfl := exec_changes_outLen hexec hne
      exact hexecutes
    · obtain ⟨rfl, hbelow, hdone⟩ := exec_changes_outByte hexec hne
      exact ⟨hexecutes, hbelow, hdone⟩

/-! ### What a filter, and a command without a frame, leave -/

theorem exec_of_noFrame {i : Instr} {s : State} (hv : s.valid = false) (hi : i ≠ .decode) :
    exec i s = .next (s.raise (some i) .noFrame (opcodeOf s.pend.word).toNat) := by
  cases i with
  | decode => exact absurd rfl hi
  | _ => exact congrArg Host.Outcome.next (withFrame_of_noFrame _ _ hv)

/-- A failure of a command other than DECODE, written out (60_exceptions.md R151; log entry 11). -/
theorem raise_eq_failedState (s : State) {i : Instr} (e : ErrCode) (info : Nat) (hi : i ≠ .decode) :
    s.raise (some i) e info =
      { failedState s e (BitVec.ofNat 32 info) with outLen := if i = .encode then 0#32 else s.outLen } := by
  simp [State.raise, failedState, hi]

/-- Settles O29: the shared check of the commands fails, and `raise` is the failure written out. -/
theorem commandsNeedFrame : Obligations.CommandsNeedFrame := by
  intro s i hv hi
  rw [exec_of_noFrame hv hi, raise_eq_failedState s _ _ hi, BitVec.ofNat_toNat]
  rfl

/-- Settles O38: a filter without a frame fails, and with one it replaces PIX and completes. -/
theorem filtersFrame : Obligations.FiltersFrame := by
  intro i s t hfilter hexec
  have hdecode : i ≠ .decode := by rcases hfilter with rfl | rfl | rfl | rfl <;> decide
  have hencode : i ≠ .encode := by rcases hfilter with rfl | rfl | rfl | rfl <;> decide
  rcases exec_cases hexec with ⟨hi, -⟩ | ⟨hi, -⟩ | ⟨-, -, rfl⟩ | ⟨hi, -⟩ | ⟨-, -, -, f, rfl⟩
  · exact absurd hi hdecode
  · exact absurd hi hdecode
  · simpa [hdecode, hencode] using ⟨fun a => inByte_congr rfl rfl rfl a, fun a => outByte_congr rfl rfl rfl a⟩
  · exact absurd hi hencode
  · simpa using ⟨fun a => inByte_congr rfl rfl rfl a, fun a => outByte_congr rfl rfl rfl a⟩

end Sys2Proof.Machine
end

section
/-! PROOFS. 10_state.md R44, 70_reset_and_hazards.md R178: CTRL and IN_LEN writes beside a running command. -/

namespace Sys2Proof.Machine

/-! ### The fields that no command reads or writes -/

/-- `s` with other values of RND, IRQ_EN and IN_LEN, which a command has latched or never reads (10_state.md R44), and
under another plan. -/
def State.withControls (rnd : RoundMode) (irqEn : Bool) (inLen : Word) (schedule : List Turn) (s : State) : State :=
  { s with rnd := rnd, irqEn := irqEn, inLen := inLen, schedule := schedule }

theorem exec_decode_of_passed {s : State} (h : decodeError s = none) :
    exec .decode s = .next (commitFrame s).complete := by
  rw [exec, execDecode, h]

theorem exec_decode_of_failed {s : State} {e : ErrCode} {info : Nat} (h : decodeError s = some (e, info)) :
    exec .decode s = .next (s.raise (some .decode) e info) := by
  rw [exec, execDecode, h]

section
variable (rnd : RoundMode) (irqEn : Bool) (inLen : Word) (schedule : List Turn)

theorem encodeFrame_withControls (s : State) :
    encodeFrame (s.withControls rnd irqEn inLen schedule) = (encodeFrame s).withControls rnd irqEn inLen schedule :=
  (apply_ite (State.withControls rnd irqEn inLen schedule) (s.params.outCap < s.frameBytes)
    (s.raise (some .encode) .ioError s.frameBytes) (storeFrame s).complete).symm

theorem withFrame_withControls (cmd : Instr) (body : State → State) (s : State)
    (hbody : body (s.withControls rnd irqEn inLen schedule) = (body s).withControls rnd irqEn inLen schedule) :
    (s.withControls rnd irqEn inLen schedule).withFrame cmd body =
      (s.withFrame cmd body).withControls rnd irqEn inLen schedule := by
  rw [State.withFrame, State.withFrame, hbody]
  exact (apply_ite (State.withControls rnd irqEn inLen schedule) (s.valid = true) (body s)
    (s.raise (some cmd) .noFrame (opcodeOf s.pend.word).toNat)).symm

/-- A command answers the same state under any controls, but for the controls themselves. -/
theorem exec_withControls {i : Instr} {s t : State} (h : exec i s = .next t) :
    exec i (s.withControls rnd irqEn inLen schedule) = .next (t.withControls rnd irqEn inLen schedule) := by
  cases i with
  | decode =>
    cases hchecks : decodeError s with
    | none =>
      rw [exec_decode_of_passed hchecks] at h
      cases h
      exact exec_decode_of_passed (s := s.withControls rnd irqEn inLen schedule) hchecks
    | some failure =>
      rw [exec_decode_of_failed hchecks] at h
      cases h
      exact exec_decode_of_failed (s := s.withControls rnd irqEn inLen schedule) hchecks
  | encode =>
    cases h
    exact congrArg Host.Outcome.next
      (withFrame_withControls _ _ _ _ _ _ s (encodeFrame_withControls rnd irqEn inLen schedule s))
  | _ =>
    cases h
    exact congrArg Host.Outcome.next (withFrame_withControls rnd irqEn inLen schedule _ _ s rfl)

theorem engineTurn_withControls {s t : State} (h : engineTurn s = .next t) :
    engineTurn (s.withControls rnd irqEn inLen schedule) = .next (t.withControls rnd irqEn inLen schedule) := by
  rcases engineTurn_cases h with ⟨hb, rfl⟩ | ⟨hb, i, hd, hexec⟩ | ⟨hb, why, hd, rfl⟩
  · exact engineTurn_idle hb
  · rw [engineTurn_busy (s := s.withControls rnd irqEn inLen schedule) hb,
      execute_command (s := s.withControls rnd irqEn inLen schedule) hd]
    exact exec_withControls rnd irqEn inLen schedule hexec
  · rw [engineTurn_busy (s := s.withControls rnd irqEn inLen schedule) hb]
    exact execute_rejected (s := s.withControls rnd irqEn inLen schedule) hd

end

/-! ### The two writes -/

/-- A CTRL write without bit 31, or an IN_LEN write: it sets controls, from the controls and IN_CAP alone. -/
theorem hostAccess_eq_withControls {v : Word} {x : HostAccess}
    (hx : x = .csrWrite 4 0x004#12 v ∧ v.getLsbD 31 = false ∨ x = .csrWrite 4 0x010#12 v) (s : State) :
    ∃ rnd irqEn inLen, ∀ u : State, u.params = s.params → u.rnd = s.rnd → u.irqEn = s.irqEn → u.inLen = s.inLen →
      hostAccess x u = u.withControls rnd irqEn inLen u.schedule := by
  rcases hx with ⟨rfl, hv⟩ | rfl
  · refine ⟨rndWritten (v.extractLsb' 0 2) s.rnd, v.getLsbD 2, s.inLen, fun u _ hrnd _ hinLen => ?_⟩
    rw [hostAccess, csrWrite_ctrl, writeCtrl_of_noReset u hv, ← hrnd, ← hinLen]
    rfl
  · refine ⟨s.rnd, s.irqEn, BitVec.ofNat 32 (min v.toNat s.params.inCap), fun u hparams hrnd hirq _ => ?_⟩
    rw [hostAccess, csrWrite_inLen, ← hparams, ← hrnd, ← hirq]
    rfl

theorem step_of_plannedEngine {s : State} {rest : List Turn} (h : s.schedule = .engine :: rest) :
    step s = engineTurn { s with schedule := rest } := step_of_turn h

theorem steps_two {s t u : State} (hfirst : step s = .next t) (hsecond : step t = .next u) : steps 2 s = .next u := by
  rw [steps_of_step 1 hfirst, steps_of_step 0 hsecond, steps]

/-- Such a write and Execute lead to the same state in either order (70_reset_and_hazards.md R178). -/
theorem controlWrite_commutes_with_engine {v : Word} {x : HostAccess}
    (hx : x = .csrWrite 4 0x004#12 v ∧ v.getLsbD 31 = false ∨ x = .csrWrite 4 0x010#12 v) (s : State) :
    steps 2 { s with schedule := [.host x, .engine] } = steps 2 { s with schedule := [.engine, .host x] } := by
  obtain ⟨rnd, irqEn, inLen, hwrite⟩ := hostAccess_eq_withControls hx s
  obtain ⟨t, ht⟩ := engineTurn_answers_next s
  obtain ⟨-, hparams, -⟩ := engineTurn_keeps ht
  have hengine := fun rnd irqEn inLen schedule => engineTurn_withControls rnd irqEn inLen schedule ht
  have hostFirst : steps 2 { s with schedule := [.host x, .engine] } = .next (t.withControls rnd irqEn inLen []) :=
    steps_two (t := s.withControls rnd irqEn inLen [.engine])
      ((step_of_host rfl).trans (congrArg _ (hwrite { s with schedule := [.engine] } rfl rfl rfl rfl)))
      ((step_of_plannedEngine rfl).trans (hengine rnd irqEn inLen []))
  have engineFirst : steps 2 { s with schedule := [.engine, .host x] } = .next (t.withControls rnd irqEn inLen []) :=
    steps_two (t := t.withControls s.rnd s.irqEn s.inLen [.host x])
      ((step_of_plannedEngine rfl).trans (hengine s.rnd s.irqEn s.inLen [.host x]))
      ((step_of_host rfl).trans
        (congrArg _ (hwrite (t.withControls s.rnd s.irqEn s.inLen []) hparams rfl rfl rfl)))
  rw [hostFirst, engineFirst]

/-- Settles O22: the write is performed at once, and the engine's turn commutes with it. -/
theorem runningCommandIgnoresCsrWrites : Obligations.RunningCommandIgnoresCsrWrites := by
  intro s v x _ hx
  refine ⟨⟨_, step_of_host rfl, ?_⟩, controlWrite_commutes_with_engine hx s⟩
  rcases hx with ⟨rfl, hv⟩ | rfl
  · rw [hostAccess, csrWrite_ctrl, writeCtrl_of_noReset _ hv]
    exact ⟨rfl, fun _ => ⟨rfl, rndWritten_patterns _ s.rnd⟩, fun h => by simp at h⟩
  · rw [hostAccess, csrWrite_inLen]
    exact ⟨rfl, fun h => by simp at h, fun _ => writeInLen_toNat _ v⟩

end Sys2Proof.Machine
end

section
/-! PROOFS. 20_memory.md: the host's accesses to IN and OUT, the two races, and which steps change a byte of IN_MEM. -/

namespace Sys2Proof.Machine

/-! ### Reads of IN and OUT, byte by byte (20_memory.md R59, R62) -/

theorem Size.bytes_le (n : Size) : n.bytes ≤ 4 := by
  cases n <;> decide

theorem inByte_of_beyond {s : State} {a : Nat} (h : ¬a < s.params.inCap) : s.inByte a = 0#8 := if_neg h

theorem byteOf_readIn (s : State) (n : Size) (a : Nat) {k : Nat} (hk : k < 4) :
    byteOf (s.readIn n.bytes a) k = if k < n.bytes then s.inByte (a + k) else 0#8 :=
  byteOf_littleEndian _ n.bytes k n.bytes_le hk

theorem byteOf_readOut (s : State) (n : Size) (a : Nat) {k : Nat} (hk : k < 4) :
    byteOf (s.readOut n.bytes a) k = if k < n.bytes then s.readOutByte (s.draws + k) (a + k) else 0#8 :=
  byteOf_littleEndian _ n.bytes k n.bytes_le hk

/-- A read of OUT uses up free choices of the model, and nothing else (log entry 22). -/
theorem spendDraws_frame (s : State) (n : Nat) : s.spendDraws n = { s with draws := (s.spendDraws n).draws } := by
  rw [State.spendDraws]
  split <;> rfl

/-! ### The byte that an ENCODE in flight leaves (20_memory.md R72) -/

/-- `outByteAfterEncode` is the byte of OUT after Execute of ENCODE, whether it fails or succeeds. -/
theorem outByte_exec_encode {s t : State} (h : exec .encode s = .next t) (a : Nat) :
    t.outByte a = s.outByteAfterEncode a := by
  have hfails : ¬(s.valid = true ∧ s.frameBytes ≤ s.params.outCap) → s.outByteAfterEncode a = s.outByte a :=
    fun hno => if_neg fun hall => hno ⟨hall.1, hall.2.1⟩
  cases hv : s.valid with
  | false =>
    rw [exec_of_noFrame hv (by decide)] at h
    cases h
    exact (hfails (by simp [hv])).symm
  | true =>
    rw [exec_encode_of_valid hv] at h
    cases h
    rcases Nat.lt_or_ge s.params.outCap s.frameBytes with hover | hfits
    · rw [encodeFrame_of_overflow hover, hfails (by omega)]
      rfl
    · rw [encodeFrame_of_fits hfits]
      refine (outByte_storeFrame s hfits a).trans ?_
      simp only [State.outByteAfterEncode, hv, hfits, true_and]

/-- A byte read from OUT is the one that stands there or, in a race only, the one that the ENCODE leaves. -/
theorem readOutByte_cases (s : State) (draw a : Nat) :
    s.readOutByte draw a = s.outByte a ∨
    (s.busy = true ∧ s.pend.word = encode .encode ∧ a < s.frameBytes ∧
      s.readOutByte draw a = s.outByteAfterEncode a) := by
  rw [State.readOutByte]
  split
  · rename_i hrace
    simp only [State.encodeInFlight, Bool.and_eq_true, decide_eq_true_eq] at hrace
    obtain ⟨⟨⟨hb, hword⟩, hbelow⟩, -⟩ := hrace
    exact .inr ⟨hb, hword, hbelow, rfl⟩
  · exact .inl rfl

/-! ### The three accesses as steps -/

/-- Settles O23: the step is `writeIn`, whose bytes `inByte_writeIn` gives. -/
theorem inWriteStoresBytes : Obligations.InWriteStoresBytes := by
  intro s n a v rest hplan
  exact ⟨_, step_of_host hplan, writeIn_frame _ a v n.bytes, inByte_writeIn { s with schedule := rest } a v n.bytes⟩

/-- Settles O24: the answer is `readIn`, and a byte of IN beyond the capacity is 0. -/
theorem inReadAnswersBytes : Obligations.InReadAnswersBytes := by
  intro s n a rest hplan
  refine ⟨s.readIn n.bytes a, step_of_host hplan, fun k hk => (byteOf_readIn s n a hk).trans ?_⟩
  by_cases hcap : a + k < s.params.inCap
  · simp only [hcap, and_true]
  · rw [inByte_of_beyond hcap, ite_self, if_neg fun h => hcap h.2]

/-- Settles O25: the answer is `readOut`, each byte of which is the old one or the one that the ENCODE leaves. -/
theorem outReadAnswersOldOrNewBytes : Obligations.OutReadAnswersOldOrNewBytes := by
  intro s n a rest hplan
  refine ⟨s.readOut n.bytes a, ⟨(State.spendDraws n.bytes { s with schedule := rest }).draws, ?_⟩, fun k hk => ?_,
    fun k hn hk => (byteOf_readOut s n a hk).trans (if_neg (by omega))⟩
  · rw [step_of_host hplan, hostAccess, spendDraws_frame]
    rfl
  · have hread : byteOf (s.readOut n.bytes a) k = s.readOutByte (s.draws + k) (a + k) :=
      (byteOf_readOut s n a (Nat.lt_of_lt_of_le hk n.bytes_le)).trans (if_pos hk)
    rcases readOutByte_cases s (s.draws + k) (a + k) with hold | ⟨hb, hword, hbelow, hnew⟩
    · exact .inl (hread.trans hold)
    · obtain ⟨t, ht⟩ := exec_answers_next .encode s
      exact .inr ⟨hb, hword, hbelow, t, ht, (hread.trans hnew).trans (outByte_exec_encode ht (a + k)).symm⟩

/-! ### Writes that race a DECODE (20_memory.md R71) -/

@[simp] theorem writeIn_pend (s : State) (a : Nat) (v : Word) (n : Nat) : (s.writeIn a v n).pend = s.pend := by
  rw [writeIn_frame]

@[simp] theorem writeIn_schedule (s : State) (a : Nat) (v : Word) (n : Nat) :
    (s.writeIn a v n).schedule = s.schedule := by
  rw [writeIn_frame]

/-- After a write of n bytes a DECODE in flight sees, in each byte, its former value or the one written to it. -/
theorem decodeByte_writeIn {s : State} (hd : s.decodeInFlight = true) (a : Nat) (v : Word) (n x : Nat) :
    (s.writeIn a v n).decodeByte x = s.decodeByte x ∨
    (a ≤ x ∧ x < a + n ∧ x < s.params.inCap ∧ (s.writeIn a v n).decodeByte x = byteOf v (x - a)) := by
  induction n with
  | zero => exact .inl rfl
  | succ n ih =>
    rw [State.writeIn]
    rcases decodeByte_writeInByte (s.writeIn a v n) (a + n) (byteOf v n) x (by rw [writeIn_decodeInFlight, hd]) with
      hkept | ⟨rfl, hcap, hnew⟩
    · rw [hkept]
      exact ih.imp_right fun ⟨hlow, hhigh, hcap, hseen⟩ => ⟨hlow, by omega, hcap, hseen⟩
    · rw [writeIn_params] at hcap
      exact .inr ⟨by omega, by omega, hcap, by rw [hnew, Nat.add_sub_cancel_left]⟩

/-- The turn in which the host writes `w.2.2` to IN at `w.2.1`. -/
def inWriteTurn (w : Size × Nat × Word) : Turn := .host (.inWrite w.1 w.2.1 w.2.2)

/-- One racing write is a step after which the same DECODE is still in flight. -/
theorem step_of_racing_write {s : State} {w : Size × Nat × Word} {rest : List Turn} (hd : s.decodeInFlight = true)
    (hplan : s.schedule = inWriteTurn w :: rest) :
    ∃ t, step s = .next t ∧ t.decodeInFlight = true ∧ t.schedule = rest ∧ t.pend = s.pend ∧ t.params = s.params ∧
      ∀ x, t.decodeByte x = s.decodeByte x ∨
        (w.2.1 ≤ x ∧ x < w.2.1 + w.1.bytes ∧ x < s.params.inCap ∧ t.decodeByte x = byteOf w.2.2 (x - w.2.1)) :=
  ⟨_, step_of_host hplan, (writeIn_decodeInFlight ..).trans hd, writeIn_schedule .., writeIn_pend .., writeIn_params ..,
    decodeByte_writeIn (s := { s with schedule := rest }) hd w.2.1 w.2.2 w.1.bytes⟩

/-- By induction on the writes: each keeps the DECODE in flight, and gives it in each byte the old value or its own. -/
theorem steps_of_racing_writes (writes : List (Size × Nat × Word)) (rest : List Turn) {s : State}
    (hd : s.decodeInFlight = true) (hplan : s.schedule = writes.map inWriteTurn ++ rest) :
    ∃ t, steps writes.length s = .next t ∧ t.schedule = rest ∧ t.pend = s.pend ∧
      ∀ x, t.decodeByte x = s.decodeByte x ∨
        ∃ w ∈ writes, w.2.1 ≤ x ∧ x < w.2.1 + w.1.bytes ∧ x < s.params.inCap ∧
          t.decodeByte x = byteOf w.2.2 (x - w.2.1) := by
  induction writes generalizing s with
  | nil => exact ⟨s, rfl, hplan, rfl, fun _ => .inl rfl⟩
  | cons w writes ih =>
    obtain ⟨u, hu, hdu, hplanu, hpendu, hparams, hfirst⟩ := step_of_racing_write hd hplan
    obtain ⟨t, ht, hrest, hpend, hseen⟩ := ih hdu hplanu
    refine ⟨t, (steps_of_step _ hu).trans ht, hrest, hpend.trans hpendu, fun x => ?_⟩
    rcases hseen x with hkept | ⟨w', hw', hreached⟩
    · rw [hkept]
      exact (hfirst x).imp_right fun hwritten => ⟨w, List.mem_cons_self, hwritten⟩
    · rw [hparams] at hreached
      exact .inr ⟨w', List.mem_cons_of_mem _ hw', hreached⟩

/-- Settles O26: the DECODE stays in flight through the racing writes. -/
theorem racedDecodeSeesOldOrWritten : Obligations.RacedDecodeSeesOldOrWritten := by
  intro s writes rest hb hword hplan
  have hd : s.decodeInFlight = true := by
    rw [State.decodeInFlight, hb, hword]
    decide
  exact steps_of_racing_writes writes rest hd hplan

/-- Settles O27: with nothing raced the image is IN_MEM, and acceptance empties the list of raced bytes. -/
theorem unracedDecodeSeesInMem : Obligations.UnracedDecodeSeesInMem := by
  refine ⟨fun _ hraced => decodeByte_unraced hraced, fun s v rest hb hplan => ?_⟩
  refine ⟨State.accept v { s with schedule := rest }, ?_, fun x => ⟨decodeByte_unraced rfl x, rfl⟩⟩
  rw [step_of_host hplan, hostAccess, csrWrite_cmd, State.issue, if_neg (by simp [hb])]

/-! ### Which steps change a byte of IN_MEM (20_memory.md R54, R63) -/

theorem inByte_csrStore (v : Word) (s : State) (c : Csr) (a : Nat) : (s.csrStore v c).inByte a = s.inByte a := by
  cases c with
  | ctrl => rw [State.csrStore, State.writeCtrl]; split <;> rfl
  | cmd => rw [State.csrStore, State.issue]; split <;> rfl
  | _ => rfl

/-- The only host access that changes a byte of IN is a write to IN that reaches it below the capacity. -/
theorem hostAccess_changes_inByte {x : HostAccess} {s : State} {a : Nat}
    (hne : (hostAccess x s).inByte a ≠ s.inByte a) :
    ∃ n b v, x = .inWrite n b v ∧ b ≤ a ∧ a < b + n.bytes ∧ a < s.params.inCap := by
  cases x with
  | inWrite n b v =>
    rw [hostAccess, inByte_writeIn] at hne
    exact ⟨n, b, v, rfl, by_contra fun hout => hne (if_neg hout)⟩
  | csrWrite bytes offset v =>
    rw [hostAccess, State.csrWrite] at hne
    split at hne
    · exact absurd (inByte_csrStore v s _ a) hne
    · exact absurd rfl hne
  | outRead n b =>
    rw [hostAccess, spendDraws_frame] at hne
    exact absurd rfl hne
  | _ => exact absurd rfl hne

/-- Settles O46: no command and no illegal word changes IN_MEM, so a step that does is a host write or a reset. -/
theorem inputChangesOnlyByHostWriteOrReset : Obligations.InputChangesOnlyByHostWriteOrReset := by
  intro s t a hstep hne
  rcases step_cases hstep with ⟨u, hmoves, hturn⟩ | ⟨x, rest, hplan, rfl⟩ | ⟨rest, hplan, rfl⟩
  · obtain ⟨rest, rfl⟩ := engineMoves_eq hmoves
    rcases hturn with ⟨-, rfl⟩ | ⟨-, i, -, hexec⟩ | ⟨-, -, rfl⟩
    · exact absurd rfl hne
    · obtain ⟨-, -, hparams, -, -, -, -, -, -, hinMem, hepoch, -⟩ := exec_keeps hexec
      exact absurd (inByte_congr hparams hepoch hinMem a) hne
    · exact absurd rfl hne
  · obtain ⟨n, b, v, rfl, hreached⟩ := hostAccess_changes_inByte hne
    exact .inl ⟨n, b, v, rest, hplan, hreached⟩
  · exact .inr ⟨rest, hplan⟩

end Sys2Proof.Machine
end

section
/-! PROOFS. 30_encoding.md R76 to R80: which words and bytes select a command, and how an illegal word fails. -/

namespace Sys2Proof.Machine

open Sys2Proof.Claims

/-! ### Words (30_encoding.md R78, R79) -/

theorem decodeWord_encode (i : Instr) : decodeWord (encode i) = .command i := by
  cases i <;> decide

theorem decodeWord_eq_command_iff {w : Word} {i : Instr} : decodeWord w = .command i ↔ w = encode i :=
  ⟨eq_encode_of_decodeWord, fun hw => hw ▸ decodeWord_encode i⟩

theorem decodeWord_rejected_of_ne {w : Word} (h : ∀ i, w ≠ encode i) : ∃ why, decodeWord w = .rejected why := by
  cases hd : decodeWord w with
  | command i => exact absurd (eq_encode_of_decodeWord hd) (h i)
  | rejected why => exact ⟨why, rfl⟩

/-- Settles O1: each word is the full word of its command. -/
theorem sixWordsDecode : Obligations.SixWordsDecode :=
  ⟨decodeWord_encode .decode, decodeWord_encode .encode, decodeWord_encode .grayscale, decodeWord_encode .reflect,
    decodeWord_encode .blur, decodeWord_encode .sepia⟩

/-- Settles O2: the decoder inverts `encode`, and what it reads as no command it rejects. -/
theorem wordSelectsCommandExactly : Obligations.WordSelectsCommandExactly :=
  ⟨fun _ _ => decodeWord_eq_command_iff, fun _ => decodeWord_rejected_of_ne⟩

/-! ### Bytes (30_encoding.md R76, 20_memory.md R58) -/

theorem encodeBytes_eq_byteOf (i : Instr) :
    encodeBytes i = [byteOf (encode i) 0, byteOf (encode i) 1, byteOf (encode i) 2, byteOf (encode i) 3] := rfl

/-- A word is its four bytes, the least significant one last. -/
theorem append_byteOf (w : Word) : byteOf w 3 ++ byteOf w 2 ++ byteOf w 1 ++ byteOf w 0 = w := by
  simp only [byteOf]
  rw [BitVec.extractLsb'_append_extractLsb'_eq_extractLsb' (show 8 * 3 = 8 * 2 + 8 from rfl),
    BitVec.extractLsb'_append_extractLsb'_eq_extractLsb' (show 8 * 2 = 8 * 1 + 8 from rfl),
    BitVec.extractLsb'_append_extractLsb'_eq_extractLsb' (show 8 * 1 = 8 * 0 + 8 from rfl)]
  exact BitVec.extractLsb'_eq_self

theorem byteOf_append (b₀ b₁ b₂ b₃ : Byte) :
    byteOf (b₃ ++ b₂ ++ b₁ ++ b₀) 0 = b₀ ∧ byteOf (b₃ ++ b₂ ++ b₁ ++ b₀) 1 = b₁ ∧
    byteOf (b₃ ++ b₂ ++ b₁ ++ b₀) 2 = b₂ ∧ byteOf (b₃ ++ b₂ ++ b₁ ++ b₀) 3 = b₃ := by
  refine ⟨?_, ?_, ?_, ?_⟩ <;> (simp only [byteOf, BitVec.extractLsb'_append_eq_ite]; simp)

theorem decodeBytes_word (w : Word) (rest : List Byte) :
    decodeBytes ([byteOf w 0, byteOf w 1, byteOf w 2, byteOf w 3] ++ rest) = (decodeWord w, rest) := by
  simp only [List.cons_append, List.nil_append, decodeBytes, append_byteOf]

/-- Bytes that decode to a command are the four bytes of a word that does, and the rest. -/
theorem eq_word_of_decodeBytes {bytes rest : List Byte} {i : Instr} (h : decodeBytes bytes = (.command i, rest)) :
    ∃ w, decodeWord w = .command i ∧ bytes = [byteOf w 0, byteOf w 1, byteOf w 2, byteOf w 3] ++ rest := by
  unfold decodeBytes at h
  split at h
  · rename_i b₀ b₁ b₂ b₃ tail
    obtain ⟨hword, rfl⟩ := Prod.mk.inj h
    obtain ⟨h₀, h₁, h₂, h₃⟩ := byteOf_append b₀ b₁ b₂ b₃
    exact ⟨_, hword, by rw [h₀, h₁, h₂, h₃]; rfl⟩
  · cases h

/-- Settles O3: bytes and words decode alike, and the only word of a command is its full word. -/
theorem decodeBytesInvertsEncodeBytes : Obligations.DecodeBytesInvertsEncodeBytes := by
  intro i bytes rest _
  rw [encodeBytes_eq_byteOf]
  constructor
  · intro h
    obtain ⟨w, hword, hbytes⟩ := eq_word_of_decodeBytes h
    rwa [eq_encode_of_decodeWord hword] at hbytes
  · rintro rfl
    rw [decodeBytes_word, decodeWord_encode]

/-! ### Illegal words (30_encoding.md R80) -/

/-- The failure of an illegal word, written out: no command raised it (60_exceptions.md R151). -/
theorem raise_none_eq_failedState (s : State) (e : ErrCode) (info : Nat) :
    s.raise none e info = failedState s e (BitVec.ofNat 32 info) := rfl

/-- Settles O5: the decoder rejects the word, and Execute fails with the word itself as detail. -/
theorem illegalWordFails : Obligations.IllegalWordFails := by
  intro s u hmoves hb hillegal
  rw [← engineMoves_busy hmoves] at hb
  rw [← engineMoves_pend hmoves] at hillegal ⊢
  obtain ⟨why, hrejected⟩ := decodeWord_rejected_of_ne hillegal
  rw [step_of_engineMoves hmoves, engineTurn_busy hb, execute_rejected hrejected, raise_none_eq_failedState,
    BitVec.ofNat_toNat, BitVec.setWidth_eq]

end Sys2Proof.Machine
end

section
/-! PROOFS. 30_encoding.md R88, R89: `load` as a plan of host accesses. -/

namespace Sys2Proof.Machine

/-! ### `inb` (30_encoding.md R88) -/

theorem steps_append {m : Nat} {s t : State} (n : Nat) (h : steps m s = .next t) : steps (m + n) s = steps n t := by
  induction m generalizing s with
  | zero => cases h; rw [Nat.zero_add]
  | succ m ih =>
    obtain ⟨u, hu⟩ := everyStepAnswersNext s
    rw [steps_of_step m hu] at h
    rw [Nat.succ_add, steps_of_step _ hu, ih h]

/-- A one-byte write to IN stores that byte, below the capacity. -/
theorem inByte_writeIn_one (s : State) (a : Nat) (b : Byte) (x : Nat) :
    (s.writeIn a (b.setWidth 32) 1).inByte x = if x = a ∧ x < s.params.inCap then b else s.inByte x := by
  have hbyte : byteOf (b.setWidth 32) 0 = b := by simp [byteOf, BitVec.extractLsb'_setWidth_of_le]
  rw [inByte_writeIn]
  by_cases hx : x = a
  · subst hx
    rw [Nat.sub_self, hbyte]
    exact if_congr (by omega) rfl rfl
  · rw [if_neg (by omega), if_neg fun h => hx h.1]

theorem step_of_inbAccess {s : State} {a : Nat} {b : Byte} {rest : List Turn}
    (hplan : s.schedule = .host (.inWrite .one a (b.setWidth 32)) :: rest) :
    ∃ t, step s = .next t ∧ t.schedule = rest ∧ t.params = s.params ∧
      ∀ x, t.inByte x = if x = a ∧ x < s.params.inCap then b else s.inByte x :=
  ⟨_, step_of_host hplan, writeIn_schedule .., writeIn_params .., inByte_writeIn_one { s with schedule := rest } a b⟩

/-- By induction on the bytes: each write stores the first of them, and the writes after it lie above. -/
theorem steps_of_inbAccesses (bytes : List Byte) (a : Nat) (rest : List Turn) {s : State}
    (hplan : s.schedule = (inbAccesses a bytes).map Turn.host ++ rest) :
    ∃ t, steps (inbAccesses a bytes).length s = .next t ∧ t.schedule = rest ∧ t.params = s.params ∧
      ∀ x, t.inByte x =
        if a ≤ x ∧ x < s.params.inCap then bytes[x - a]?.getD (s.inByte x) else s.inByte x := by
  induction bytes generalizing a s with
  | nil => exact ⟨s, rfl, hplan, rfl, fun x => by rw [List.getElem?_nil, Option.getD_none, ite_self]⟩
  | cons b bytes ih =>
    obtain ⟨u, hu, hplanu, hparamsu, hfirst⟩ := step_of_inbAccess hplan
    obtain ⟨t, ht, hrest, hparams, hlater⟩ := ih (a + 1) hplanu
    refine ⟨t, (steps_of_step _ hu).trans ht, hrest, hparams.trans hparamsu, fun x => ?_⟩
    rw [hlater x, hfirst x, hparamsu]
    rcases Nat.lt_trichotomy x a with hbelow | rfl | habove
    · rw [if_neg (by omega), if_neg (by omega), if_neg (by omega)]
    · rw [if_neg (by omega), Nat.sub_self]
      exact if_congr (by simp) rfl rfl
    · rw [if_neg (c := x = a ∧ _) (by omega), show x - a = x - (a + 1) + 1 by omega, List.getElem?_cons_succ]
      exact if_congr (by simp only [habove.le, Nat.succ_le_of_lt habove]) rfl rfl

/-! ### `load` (30_encoding.md R89) -/

theorem stmtAccesses_load (len : Word) (bytes : List Byte) :
    stmtAccesses [] (.load len bytes) = inbAccesses 0 bytes ++ [wrAccess .inLen len] :=
  opsAccesses_map_access _ _

/-- Settles O28: the writes of `inb` from address 0, then one write of IN_LEN. -/
theorem loadStatementFillsInput : Obligations.LoadStatementFillsInput := by
  intro s len bytes
  rw [stmtAccesses_load, List.map_append, List.length_append]
  obtain ⟨u, hu, hplan, hparams, hbytes⟩ := steps_of_inbAccesses bytes 0 [.host (wrAccess .inLen len)]
    (s := { s with schedule := (inbAccesses 0 bytes).map Turn.host ++ [.host (wrAccess .inLen len)] }) rfl
  refine ⟨State.writeInLen len { u with schedule := [] }, ?_, rfl, ?_, fun x => ?_⟩
  · exact (steps_append 1 hu).trans (steps_of_step 0 (step_of_host hplan))
  · rw [writeInLen_toNat, hparams]
  · have hstored : u.inByte x =
        if 0 ≤ x ∧ x < s.params.inCap then bytes[x]?.getD (s.inByte x) else s.inByte x := hbytes x
    refine hstored.trans ?_
    by_cases hlen : x < bytes.length
    · by_cases hcap : x < s.params.inCap <;> simp [hlen, hcap]
    · simp [hlen]

end Sys2Proof.Machine
end

section
/-! PROOFS. 30_encoding.md R89, R90, R93: the statements `run` and `filter` played beside the engine. -/

namespace Sys2Proof.Machine

/-! ### One `run` (30_encoding.md R89, R90) -/

/-- `s` after the CMD write of `run i` and `n` STATUS reads: command `i` is running. -/
def State.running (i : Instr) (n : Nat) (s : State) : State :=
  { s.accept (encode i) with reads := List.replicate n (statusWord (s.accept (encode i))) ++ s.reads }

/-- `s` after one STATUS read. -/
def State.statusRead (s : State) : State := s.answer (statusWord s)

theorem running_busy (i : Instr) (n : Nat) (s : State) : (s.running i n).busy = true := rfl

theorem running_decodes (i : Instr) (n : Nat) (s : State) : decodeWord (s.running i n).pend.word = .command i :=
  decodeWord_encode i

theorem engineTurn_running {i : Instr} {n : Nat} {s t : State} (h : exec i (s.running i n) = .next t) :
    engineTurn (s.running i n) = .next t := by
  rw [engineTurn_busy (running_busy i n s), execute_command (running_decodes i n s), h]

theorem move_host_issue (i : Instr) (rest : List HostOp) {s : State} (h : s.busy = false) :
    Playing.move .host { machine := s, program := .access (wrAccess .cmd (encode i)) :: rest } =
      .next { machine := s.accept (encode i), program := rest } := by
  have hissue : hostAccess (wrAccess .cmd (encode i)) s = s.accept (encode i) := by
    rw [wrAccess, hostAccess, csrOffset, csrWrite_cmd, State.issue, if_neg (by simp [h])]
  rw [move_host rfl, hissue]
  rfl

/-- By induction on the reads: each leaves the host in its loop and adds the same STATUS word. -/
theorem play_busy_reads (n : Nat) (stop : Bool) (rest : List HostOp) {s : State} (h : s.busy = true) :
    play (List.replicate n .host) { machine := s, program := .waitIdle stop :: rest } =
      .next {
        machine := { s with reads := List.replicate n (statusWord s) ++ s.reads }
        program := .waitIdle stop :: rest } := by
  induction n generalizing s with
  | zero => rfl
  | succ n ih =>
    rw [List.replicate_succ, play_cons _ (move_host_busy stop rest h), ih (s := s.answer (statusWord s)) h,
      List.replicate_succ', List.append_assoc]
    rfl

/-- A `run` before other operations: the command executes once, and its loop ends with the first read after that. -/
theorem play_run (i : Instr) (stop : Bool) (n : Nat) (rest : List HostOp) {s t : State} (hb : s.busy = false)
    (hexec : exec i (s.running i n) = .next t) :
    play (runOrder n) { machine := s, program := runOps i stop ++ rest } =
      .next { machine := t.statusRead, program := if stop && t.error then [] else rest } := by
  obtain ⟨hidle, -⟩ := exec_keeps hexec
  have hreads : play (List.replicate n .host) { machine := s.accept (encode i), program := .waitIdle stop :: rest } =
      .next { machine := s.running i n, program := .waitIdle stop :: rest } := play_busy_reads n stop rest rfl
  rw [runOrder, runOps, List.cons_append, play_cons _ (move_host_issue i _ hb)]
  refine (play_append hreads).trans ?_
  rw [play_cons _ (move_engine _ (engineTurn_running hexec)), play_cons _ (move_host_idle stop rest hidle)]
  rfl

theorem runCommand_of_exec {i : Instr} {n : Nat} {s t : State} (hb : s.busy = false)
    (hexec : exec i (s.running i n) = .next t) :
    runCommand i n s = .next { machine := t.statusRead, program := [] } :=
  play_run i false n [] hb hexec

/-- A command that starts with no report ends with exactly one of DONE and ERROR. -/
theorem exec_reports_one {i : Instr} {s t : State} (hdone : s.done = false) (herror : s.error = false)
    (h : exec i s = .next t) : t.done = !t.error := by
  rcases exec_cases h with ⟨-, -, rfl⟩ | ⟨-, e, info, -, rfl⟩ | ⟨-, -, rfl⟩ | ⟨-, -, rfl⟩ | ⟨-, -, -, f, rfl⟩
  · simp [herror]
  · simp [hdone]
  · simp [hdone]
  · rcases Nat.lt_or_ge s.params.outCap s.frameBytes with hover | hfits
    · rw [encodeFrame_of_overflow hover]
      simp [hdone]
    · rw [encodeFrame_of_fits hfits]
      simp [herror]
  · simp [herror]

theorem opcodeOf_encode (i : Instr) : opcodeOf (encode i) = opcode i := by
  cases i <;> decide

/-- Settles O58: the command executes once between the two parts of the host's loop. -/
theorem runStatementCompletes : Obligations.RunStatementCompletes := by
  intro s i busyReads hb
  obtain ⟨t, ht⟩ := exec_answers_next i (s.running i busyReads)
  obtain ⟨hidle, -, -, -, -, -, hlastOp, -, -, -, -, -, hplan, hreads⟩ := exec_keeps ht
  have hreport := exec_reports_one (s := s.running i busyReads) rfl rfl ht
  exact ⟨t.statusRead, runCommand_of_exec hb ht, hidle, hplan, hlastOp.trans (opcodeOf_encode i), hreport,
    congrArg (statusWord t :: ·) hreads⟩

/-! ### `filter` (30_encoding.md R93) -/

/-- Settles O60: the DECODE of `filter` stops the program, and no later move changes anything. -/
theorem filterStopsAtFailedDecode : Obligations.FilterStopsAtFailedDecode := by
  intro f s t d k e hb hrun herror
  obtain ⟨u, hu⟩ := exec_answers_next .decode (s.running .decode d)
  rw [runCommand_of_exec hb hu] at hrun
  cases hrun
  obtain ⟨hidle, -⟩ := exec_keeps hu
  have hstops := play_run .decode true d (runOps f.command true ++ runOps .encode false) hb hu
  rw [show u.error = true from herror] at hstops
  rw [runFilter, List.append_assoc]
  exact (play_append hstops).trans (play_ended _ hidle)

/-- A `filter` whose first two commands succeed executes all three, each in the state that the run before it left. -/
theorem runFilter_of_exec {f : Filter} {d k e : Nat} {s t u v : State} (hb : s.busy = false)
    (hdecode : exec .decode (s.running .decode d) = .next t) (ht : t.error = false)
    (hfilter : exec f.command (t.statusRead.running f.command k) = .next u) (hu : u.error = false)
    (hencode : exec .encode (u.statusRead.running .encode e) = .next v) :
    runFilter f d k e s = .next { machine := v.statusRead, program := [] } := by
  obtain ⟨htidle, -⟩ := exec_keeps hdecode
  obtain ⟨huidle, -⟩ := exec_keeps hfilter
  have hfirst := play_run .decode true d (runOps f.command true ++ runOps .encode false) hb hdecode
  have hsecond := play_run f.command true k (runOps .encode false) (s := t.statusRead) htidle hfilter
  have hthird := play_run .encode false e [] (s := u.statusRead) huidle hencode
  rw [ht] at hfirst
  rw [hu] at hsecond
  rw [runFilter, List.append_assoc]
  exact (play_append hfirst).trans ((play_append hsecond).trans hthird)

end Sys2Proof.Machine
end

section
/-! PROOFS. 30_encoding.md R93, 40_codec.md, 42_reflect.md: from the input bytes of `filter REFLECT` to its output. -/

namespace Sys2Proof.Machine

open Sys2Proof.Claims

/-! ### A frame held (40_codec.md R102, R108) -/

/-- The frame held has the first 54 bytes of `A` as its header, and `H` rows of `W` pixels, which are `pixels`. -/
structure HoldsFrame (A : Nat → Byte) (H W : Nat) (pixels : Nat → Nat → Pixel) (s : State) : Prop where
  valid : s.valid = true
  width : s.width.toNat = W
  height : s.height.toNat = H
  padding : s.padding.toNat = pad W
  header : ∀ i, i < 54 → s.hdrByte i = A i
  pixel : ∀ r c, r < H → c < W → s.pixel r c = pixels r c

theorem holdsFrame_commitFrame (s : State) :
    HoldsFrame s.decodeByte s.inH s.inW (inputPixel s) (commitFrame s) where
  valid := rfl
  width := commitFrame_width s
  height := commitFrame_height s
  padding := commitFrame_padding s
  header _ := commitFrame_hdrByte s
  pixel _ _ := commitFrame_pixel s

/-- The bytes of an input pixel lie in on-disk order (40_codec.md R102). -/
theorem pixelByte_inputPixel (s : State) (r c : Nat) {k : Nat} (hk : k < 3) :
    pixelByte (inputPixel s r c) k = s.decodeByte (54 + r * stride s.inW + 3 * c + k) := by
  obtain rfl | rfl | rfl : k = 0 ∨ k = 1 ∨ k = 2 := by omega
  · rfl
  · rfl
  · rfl

/-- The frame that ENCODE of such a frame leaves in OUT, where `s` is the state before (40_codec.md R108, R109). -/
structure WritesFrame (A : Nat → Byte) (H W : Nat) (pixels : Nat → Nat → Pixel) (s t : State) : Prop where
  outLen : t.outLen.toNat = 54 + H * stride W
  header : ∀ a, a < 54 → t.outByte a = A a
  pixel : ∀ r c k, r < H → c < W → k < 3 →
    t.outByte (54 + r * stride W + 3 * c + k) = pixelByte (pixels r c) k
  padding : ∀ r p, r < H → p < pad W → t.outByte (54 + r * stride W + 3 * W + p) = 0#8
  beyond : ∀ a, 54 + H * stride W ≤ a → t.outByte a = s.outByte a

/-- A byte of row `r` lies within a frame of `H` rows. -/
theorem row_byte_lt {H S r j : Nat} (hr : r < H) (hj : j < S) : 54 + r * S + j < 54 + H * S := by
  have hcell := cell_lt hr hj
  omega

section
variable {A : Nat → Byte} {H W : Nat} {pixels : Nat → Nat → Pixel} {s : State}

/-- REFLECT holds the same frame with each row mirrored (42_reflect.md R122). -/
theorem HoldsFrame.reflected (hs : HoldsFrame A H W pixels s) :
    HoldsFrame A H W (fun r c => pixels r (W - 1 - c))
      (s.replacePixels fun r c => s.pixel r (s.width.toNat - 1 - c)) where
  valid := hs.valid
  width := hs.width
  height := hs.height
  padding := hs.padding
  header := hs.header
  pixel r c hr hc := by
    rw [pixel_replacePixels s _ (hs.height.symm ▸ hr) (hs.width.symm ▸ hc), hs.width,
      hs.pixel r (W - 1 - c) hr (by omega)]

theorem HoldsFrame.rowBytes_eq (hs : HoldsFrame A H W pixels s) : s.rowBytes = stride W := by
  rw [State.rowBytes, hs.width, hs.padding, stride]

theorem HoldsFrame.frameBytes_eq (hs : HoldsFrame A H W pixels s) : s.frameBytes = 54 + H * stride W := by
  rw [State.frameBytes, hs.rowBytes_eq, hs.height]

theorem HoldsFrame.frameByte_of_row (hs : HoldsFrame A H W pixels s) (r : Nat) {j : Nat} (hj : j < stride W) :
    s.frameByte (54 + r * stride W + j) = if j < 3 * W then pixelByte (s.pixel r (j / 3)) (j % 3) else 0#8 := by
  rw [← hs.rowBytes_eq, ← hs.width]
  exact frameByte_row s r (hs.rowBytes_eq ▸ hj)

theorem HoldsFrame.writesFrame (hs : HoldsFrame A H W pixels s) (hwf : s.params.wf = true)
    (hfits : 54 + H * stride W ≤ s.params.outCap) : WritesFrame A H W pixels s (storeFrame s) := by
  have hlen := hs.frameBytes_eq
  have hstored : ∀ a, (storeFrame s).outByte a =
      if a < 54 + H * stride W then s.frameByte a else s.outByte a :=
    fun a => by rw [outByte_storeFrame s (by omega), hlen]
  have hrow : ∀ r j, r < H → j < stride W → (storeFrame s).outByte (54 + r * stride W + j) =
      if j < 3 * W then pixelByte (s.pixel r (j / 3)) (j % 3) else 0#8 :=
    fun r j hr hj => by rw [hstored, if_pos (row_byte_lt hr hj), hs.frameByte_of_row r hj]
  have hstride : stride W = 3 * W + pad W := rfl
  constructor
  case outLen =>
    obtain ⟨-, hcap, -⟩ := caps_lt_of_wf hwf
    rw [storeFrame_outLen, BitVec.toNat_ofNat, hlen, Nat.mod_eq_of_lt (by omega)]
  case header =>
    intro a ha
    rw [hstored, if_pos (by omega), frameByte_header s ha, hs.header a ha]
  case pixel =>
    intro r c k hr hc hk
    rw [Nat.add_assoc _ (3 * c), hrow r (3 * c + k) hr (by omega), if_pos (by omega), show (3 * c + k) / 3 = c by omega,
      show (3 * c + k) % 3 = k by omega, hs.pixel r c hr hc]
  case padding =>
    intro r p hr hp
    rw [Nat.add_assoc _ (3 * W), hrow r (3 * W + p) hr (by omega), if_neg (by omega)]
  case beyond =>
    intro a ha
    rw [hstored, if_neg (by omega)]

end

/-! ### The three runs of `filter REFLECT` -/

theorem exec_decode_of_acceptable {s : State} (h : Acceptable s.decodeByte s.pend.inLen.toNat s.params.pixCap) :
    exec .decode s = .next (commitFrame s).complete :=
  exec_decode_of_passed ((decodeError_eq_none_iff s).mpr h)

theorem exec_reflect_of_valid {s : State} (h : s.valid = true) :
    exec .reflect s = .next (s.replacePixels fun r c => s.pixel r (s.width.toNat - 1 - c)).complete := by
  rw [exec, execReflect, withFrame_of_valid _ _ h]

theorem exec_encode_of_fits {s : State} (hv : s.valid = true) (hfits : s.frameBytes ≤ s.params.outCap) :
    exec .encode s = .next (storeFrame s).complete := by
  rw [exec_encode_of_valid hv, encodeFrame_of_fits hfits]

/-- A `run` that starts in `s` and completes as `t` reports no error and leaves the parameters and OUT. -/
structure KeepsOutput (s t : State) : Prop where
  noError : t.error = false
  params : t.params = s.params
  outByte : ∀ a, t.outByte a = s.outByte a

theorem run_decode_of_acceptable (n : Nat) {s : State} (hinput : Acceptable s.inByte s.inLen.toNat s.params.pixCap) :
    ∃ t pixels, exec .decode (s.running .decode n) = .next t ∧ KeepsOutput s t ∧
      HoldsFrame s.inByte (sle32 s.inByte 22).natAbs (sle32 s.inByte 18).toNat pixels t.statusRead ∧
      ∀ r c k, k < 3 →
        pixelByte (pixels r c) k = s.inByte (54 + r * stride (sle32 s.inByte 18).toNat + 3 * c + k) :=
  ⟨(commitFrame (s.running .decode n)).complete, inputPixel (s.running .decode n),
    exec_decode_of_acceptable (s := s.running .decode n) hinput, ⟨rfl, rfl, fun _ => rfl⟩,
    { holdsFrame_commitFrame (s.running .decode n) with }, fun r c _ hk => pixelByte_inputPixel _ r c hk⟩

section
variable {A : Nat → Byte} {H W : Nat} {pixels : Nat → Nat → Pixel} {s : State}

theorem run_reflect_of_holdsFrame (n : Nat) (hs : HoldsFrame A H W pixels s) :
    ∃ t, exec .reflect (s.running .reflect n) = .next t ∧ KeepsOutput s t ∧
      HoldsFrame A H W (fun r c => pixels r (W - 1 - c)) t.statusRead := by
  have hrunning : HoldsFrame A H W pixels (s.running .reflect n) := { hs with }
  exact ⟨_, exec_reflect_of_valid hrunning.valid, ⟨rfl, rfl, fun _ => rfl⟩, { hrunning.reflected with }⟩

theorem run_encode_of_holdsFrame (n : Nat) (hs : HoldsFrame A H W pixels s) (hwf : s.params.wf = true)
    (hfits : 54 + H * stride W ≤ s.params.outCap) :
    ∃ t, exec .encode (s.running .encode n) = .next t ∧ t.done = true ∧ t.error = false ∧
      WritesFrame A H W pixels s t.statusRead := by
  have hrunning : HoldsFrame A H W pixels (s.running .encode n) := { hs with }
  exact ⟨_, exec_encode_of_fits hrunning.valid (hrunning.frameBytes_eq.trans_le hfits), rfl, rfl,
    { hrunning.writesFrame hwf hfits with }⟩

end

/-- Settles O59: DECODE holds the input's frame, REFLECT mirrors its rows, and ENCODE writes what is then held. -/
theorem filterReflectEndToEnd : Obligations.FilterReflectEndToEnd := by
  rintro s W H S d k e hb hwf hinput rfl rfl rfl hfits
  obtain ⟨t, pixels, hdecode, ht, hdecoded, hinputPixels⟩ := run_decode_of_acceptable d hinput
  obtain ⟨u, hreflect, hu, hreflected⟩ := run_reflect_of_holdsFrame k hdecoded
  have hparams : u.statusRead.params = s.params := hu.params.trans ht.params
  obtain ⟨v, hencode, hdone, herror, hout⟩ :=
    run_encode_of_holdsFrame e hreflected (hparams ▸ hwf) (hparams ▸ hfits)
  refine ⟨v.statusRead, runFilter_of_exec hb hdecode ht.noError hreflect hu.noError hencode, hdone, herror,
    hout.outLen, hout.header, fun r c k hr hc hk => ?_, hout.padding, fun a ha => ?_⟩
  · exact (hout.pixel r c k hr hc hk).trans (hinputPixels r _ k hk)
  · exact (hout.beyond a ha).trans ((hu.outByte a).trans (ht.outByte a))

end Sys2Proof.Machine
end

section
/-! PROOFS. 40_codec.md R95 to R103: the checks of DECODE, its commit, and the input bytes on which they depend. -/

namespace Sys2Proof.Machine

open Sys2Proof.Claims

/-! ### The commit and the failure (40_codec.md R101, R102) -/

/-- Settles O30: on an acceptable input DECODE completes the commit, whose fields the `commitFrame` lemmas give. -/
theorem decodeCommitsFrame : Obligations.DecodeCommitsFrame := by
  intro s hacceptable
  have hW : (commitFrame s).complete.width.toNat = s.inW := commitFrame_width s
  have ⟨_, _, _, _, _, _, hwidth, _, _⟩ := hacceptable
  refine ⟨_, exec_decode_of_acceptable hacceptable, rfl, fun i hi => commitFrame_hdrByte s hi,
    (headerShown_commitFrame hwidth).width.trans ?_, commitFrame_height s, ?_, ?_, fun r c hr hc => ?_⟩
  · exact sle32_congr (fun i hi => commitFrame_hdrByte s hi) (by decide)
  · exact (headerShown_commitFrame hwidth).padding
  · exact (frameHeld_commitFrame hacceptable).cells
  · exact (commitFrame_pixel s (commitFrame_height s ▸ hr) (commitFrame_width s ▸ hc)).trans
      (by rw [inputPixel, hW])

theorem raise_decode_eq_failedState (s : State) (e : ErrCode) (info : Nat) :
    s.raise (some .decode) e info = { failedState s e (BitVec.ofNat 32 info) with valid := false } := rfl

/-- With the length and the fixed fields of the header in order, the dimensions decide (40_codec.md R98 to R100). -/
theorem decodeError_of_fixedFields {s : State} (hlen : 54 ≤ s.pend.inLen.toNat) (hsig : le16 s.decodeByte 0 = 0x4D42)
    (hoff : le32 s.decodeByte 10 = 54) (hsize : le32 s.decodeByte 14 = 40) (hbits : le16 s.decodeByte 28 = 24)
    (hcomp : le32 s.decodeByte 30 = 0) :
    decodeError s =
      if s.inWidth < 0 then some (.formatError, 6)
      else if s.params.pixCap < s.inW * s.inH then some (.resourceExhausted, min (s.inW * s.inH) 0xFFFFFFFF)
      else if s.pend.inLen.toNat < s.inNeed then some (.truncatedInput, s.inNeed)
      else none := by
  simp [decodeError, Nat.not_lt.mpr hlen, hsig, hoff, hsize, hbits, hcomp]

/-- Settles O31: in each clause the checks before the named one pass, so `decodeError` is that check's failure. -/
theorem decodeChecksInOrder : Obligations.DecodeChecksInOrder := by
  rintro s A L W H rfl rfl rfl rfl e info hclause
  rw [← raise_decode_eq_failedState]
  apply exec_decode_of_failed
  rcases hclause with ⟨hlen, rfl, rfl⟩ | ⟨hlen, hsig, rfl, rfl⟩ | ⟨hlen, hsig, hoff, rfl, rfl⟩ |
    ⟨hlen, hsig, hoff, hsize, rfl, rfl⟩ | ⟨hlen, hsig, hoff, hsize, hbits, rfl, rfl⟩ |
    ⟨hlen, hsig, hoff, hsize, hbits, hcomp, rfl, rfl⟩ | ⟨hlen, hsig, hoff, hsize, hbits, hcomp, hdimensions⟩
  · simp [decodeError, hlen]
  · simp [decodeError, hlen, hsig]
  · simp [decodeError, hlen, hsig, hoff]
  · simp [decodeError, hlen, hsig, hoff, hsize]
  · simp [decodeError, hlen, hsig, hoff, hsize, hbits]
  · simp [decodeError, hlen, hsig, hoff, hsize, hbits, hcomp]
  · rw [decodeError_of_fixedFields hlen hsig hoff hsize hbits hcomp]
    rcases hdimensions with ⟨hwidth, rfl, rfl⟩ | ⟨hwidth, hcap, rfl, rfl⟩ | ⟨hwidth, hcap, hneed, rfl, rfl⟩
    · exact if_pos hwidth
    · exact (if_neg (not_lt.mpr hwidth)).trans (if_pos hcap)
    · exact (if_neg (not_lt.mpr hwidth)).trans ((if_neg (Nat.not_lt.mpr hcap)).trans (if_pos hneed))

/-! ### What DECODE leaves unchanged -/

theorem exec_keeps_registers {i : Instr} {s t : State} (h : exec i s = .next t)
    (hi : ¬(i = .decode ∧ t.valid = true)) :
    t.hdr = s.hdr ∧ t.width = s.width ∧ t.height = s.height ∧ t.padding = s.padding := by
  by_contra hne
  obtain ⟨hdecode, hvalid, -⟩ := exec_changes_registers h (by tauto)
  exact hi ⟨hdecode, hvalid⟩

/-- Settles O39: what no command changes, what only ENCODE changes, and what only a successful command changes. -/
theorem decodeFrame : Obligations.DecodeFrame := by
  intro s t h
  obtain ⟨-, -, hparams, hrnd, hirq, hovr, hop, hinLen, hpend, hin, hepoch, -⟩ := exec_keeps h
  refine ⟨hparams, hrnd, hirq, hovr, hop, hinLen, ?_, hpend, inByte_congr hparams hepoch hin, fun a => ?_,
    fun hfails => ?_⟩
  · by_contra hne
    cases exec_changes_outLen h hne
  · by_contra hne
    cases (exec_changes_outByte h hne).1
  · obtain ⟨hhdr, hwidth, hheight, hpadding⟩ := exec_keeps_registers h (by simp [hfails])
    refine ⟨hhdr, hwidth, hheight, hpadding, ?_⟩
    by_contra hne
    obtain ⟨-, hvalid, -⟩ := exec_changes_pix h hne
    exact absurd hvalid (by simp [hfails])

/-! ### Rows of a frame as bytes (00_scope.md R18) -/

theorem row_byte_mod {S j : Nat} (r : Nat) (hj : j < S) : (54 + r * S + j - 54) % S = j := by
  rw [show 54 + r * S + j - 54 = S * r + j by rw [Nat.mul_comm]; omega, Nat.mul_add_mod, Nat.mod_eq_of_lt hj]

/-- Every byte after the header lies in some row, at some offset. -/
theorem exists_row_byte {H S a : Nat} (h54 : 54 ≤ a) (ha : a < 54 + H * S) :
    ∃ r j, r < H ∧ j < S ∧ a = 54 + r * S + j := by
  have hS : 0 < S := by
    rcases Nat.eq_zero_or_pos S with rfl | hpos
    · omega
    · exact hpos
  have hdivmod : S * ((a - 54) / S) + (a - 54) % S = a - 54 := Nat.div_add_mod _ _
  refine ⟨(a - 54) / S, (a - 54) % S, Nat.div_lt_of_lt_mul (by rw [Nat.mul_comm]; omega), Nat.mod_lt _ hS, ?_⟩
  rw [Nat.mul_comm ((a - 54) / S)]
  omega

/-! ### The input bytes that DECODE reads (40_codec.md R100, R103) -/

section
variable {s t : State} (hheader : ∀ a, a < 54 → t.decodeByte a = s.decodeByte a)
include hheader

theorem inW_congr : t.inW = s.inW := by
  rw [State.inW, State.inW, State.inWidth, State.inWidth, sle32_congr hheader (by decide)]

theorem inH_congr : t.inH = s.inH := by
  rw [State.inH, State.inH, State.inHeight, State.inHeight, sle32_congr hheader (by decide)]

/-- The checks read the header, PEND.inlen and PIX_CAP alone. -/
theorem decodeError_congr (hparams : t.params = s.params) (hpend : t.pend = s.pend) :
    decodeError t = decodeError s := by
  have hsig : le16 t.decodeByte 0 = le16 s.decodeByte 0 := le16_congr hheader (by decide)
  have hoff : le32 t.decodeByte 10 = le32 s.decodeByte 10 := le32_congr hheader (by decide)
  have hsize : le32 t.decodeByte 14 = le32 s.decodeByte 14 := le32_congr hheader (by decide)
  have hbits : le16 t.decodeByte 28 = le16 s.decodeByte 28 := le16_congr hheader (by decide)
  have hcomp : le32 t.decodeByte 30 = le32 s.decodeByte 30 := le32_congr hheader (by decide)
  have hwidth : t.inWidth = s.inWidth := sle32_congr hheader (by decide)
  rw [decodeError, decodeError, State.inNeed, State.inNeed, hparams, hpend, hsig, hoff, hsize, hbits, hcomp, hwidth,
    inW_congr hheader, inH_congr hheader]

end

/-- A pixel of the frame reads its own three bytes, which lie before the padding of its row. -/
theorem inputPixel_congr {s t : State} {r c : Nat} (hwidth : t.inW = s.inW)
    (hpixels : ∀ a, 54 ≤ a → a < 54 + s.inH * stride s.inW → (a - 54) % stride s.inW < 3 * s.inW →
      t.decodeByte a = s.decodeByte a) (hr : r < s.inH) (hc : c < s.inW) :
    inputPixel t r c = inputPixel s r c := by
  have hstride : stride s.inW = 3 * s.inW + pad s.inW := rfl
  have hbyte : ∀ j, j < 3 * s.inW →
      t.decodeByte (54 + r * stride s.inW + j) = s.decodeByte (54 + r * stride s.inW + j) := fun j hj =>
    hpixels _ (by omega) (row_byte_lt hr (by omega)) (by rw [row_byte_mod r (by omega)]; exact hj)
  simp only [inputPixel, hwidth, Nat.add_assoc _ (3 * c), hbyte (3 * c) (by omega), hbyte (3 * c + 1) (by omega),
    hbyte (3 * c + 2) (by omega)]

/-- The commit reads the header and the pixel bytes alone. -/
theorem commitFrame_congr {s t : State} {m q : Memory} (ht : t = { s with inMem := m, raced := q })
    (hheader : ∀ a, a < 54 → t.decodeByte a = s.decodeByte a)
    (hpixels : ∀ a, 54 ≤ a → a < 54 + s.inH * stride s.inW → (a - 54) % stride s.inW < 3 * s.inW →
      t.decodeByte a = s.decodeByte a) :
    commitFrame t = { commitFrame s with inMem := m, raced := q } := by
  have hwidth := inW_congr hheader
  have hheight := inH_congr hheader
  have hhdr : (Vector.ofFn fun i : Fin 54 => t.decodeByte i.val) = Vector.ofFn fun i => s.decodeByte i.val :=
    congrArg Vector.ofFn (funext fun i => hheader i.val i.isLt)
  have hpix : pixelGrid s.inH s.inW (inputPixel t) = pixelGrid s.inH s.inW (inputPixel s) :=
    pixelGrid_congr fun r c hr hc => inputPixel_congr hwidth hpixels hr hc
  rw [commitFrame, commitFrame, hwidth, hheight, hhdr, hpix, ht]

/-- Settles O57: the checks agree, and where they pass so do the header, the dimensions and every pixel. -/
theorem decodeIgnoresPaddingAndTail : Obligations.DecodeIgnoresPaddingAndTail := by
  rintro s m q t W H ht rfl rfl hheader hpixels
  have hparams : t.params = s.params := by rw [ht]
  have hpend : t.pend = s.pend := by rw [ht]
  have hchecks : decodeError t = decodeError s := decodeError_congr hheader hparams hpend
  cases hs : decodeError s with
  | some failure =>
    refine ⟨_, exec_decode_of_failed hs, ?_⟩
    rw [exec_decode_of_failed (hchecks.trans hs), ht]
    rfl
  | none =>
    refine ⟨_, exec_decode_of_passed hs, ?_⟩
    rw [exec_decode_of_passed (hchecks.trans hs), commitFrame_congr ht hheader hpixels]
    rfl

end Sys2Proof.Machine
end

section
/-! PROOFS. 40_codec.md R108 to R113: the output of ENCODE, its frame, and the round trip of DECODE and ENCODE. -/

namespace Sys2Proof.Machine

/-! ### The bytes of OUT after the output of a frame that fits (40_codec.md R108, R109) -/

section
variable {s : State} (hfits : s.frameBytes ≤ s.params.outCap)
include hfits

theorem outByte_storeFrame_row {r j : Nat} (hr : r < s.height.toNat) (hj : j < s.rowBytes) :
    (storeFrame s).outByte (54 + r * s.rowBytes + j) =
      if j < 3 * s.width.toNat then pixelByte (s.pixel r (j / 3)) (j % 3) else 0#8 := by
  rw [outByte_storeFrame s hfits, State.frameBytes, if_pos (row_byte_lt hr hj), frameByte_row s r hj]

theorem outByte_storeFrame_pixel {r c k : Nat} (hr : r < s.height.toNat) (hc : c < s.width.toNat) (hk : k < 3) :
    (storeFrame s).outByte (54 + r * s.rowBytes + 3 * c + k) = pixelByte (s.pixel r c) k := by
  have hrow : s.rowBytes = 3 * s.width.toNat + s.padding.toNat := rfl
  rw [Nat.add_assoc _ (3 * c), outByte_storeFrame_row hfits hr (by omega), if_pos (by omega),
    show (3 * c + k) / 3 = c by omega, show (3 * c + k) % 3 = k by omega]

theorem outByte_storeFrame_padding {r p : Nat} (hr : r < s.height.toNat) (hp : p < s.padding.toNat) :
    (storeFrame s).outByte (54 + r * s.rowBytes + 3 * s.width.toNat + p) = 0#8 := by
  have hrow : s.rowBytes = 3 * s.width.toNat + s.padding.toNat := rfl
  rw [Nat.add_assoc _ (3 * s.width.toNat), outByte_storeFrame_row hfits hr (by omega), if_neg (by omega)]

theorem storeFrame_outLen_toNat (hwf : s.params.wf = true) : (storeFrame s).outLen.toNat = s.frameBytes := by
  obtain ⟨-, hcap, -⟩ := caps_lt_of_wf hwf
  rw [storeFrame_outLen, BitVec.toNat_ofNat, Nat.mod_eq_of_lt (by omega)]

end

/-- Settles O32: a held frame that fits is stored, header, rows and OUT_LEN, and nothing above it. -/
theorem encodeWritesFrame : Obligations.EncodeWritesFrame := by
  rintro s W H P S need rfl rfl rfl rfl rfl hwf hv hfits
  have hstored := outByte_storeFrame s hfits
  refine ⟨_, exec_encode_of_fits hv hfits, rfl, storeFrame_outLen_toNat hfits hwf, fun i hi => ?_,
    fun r c hr hc => ?_, fun r p hr hp => outByte_storeFrame_padding hfits hr hp, fun a ha => ?_⟩
  · exact (hstored i).trans ((if_pos (Nat.lt_add_right _ hi)).trans (frameByte_header s hi))
  · exact ⟨outByte_storeFrame_pixel hfits hr hc (k := 0) (by decide),
      outByte_storeFrame_pixel hfits hr hc (k := 1) (by decide),
      outByte_storeFrame_pixel hfits hr hc (k := 2) (by decide)⟩
  · exact (hstored a).trans (if_neg (Nat.not_lt.mpr ha))

/-- Settles O33: the check of the length fails before anything is stored. -/
theorem encodeOverflowFails : Obligations.EncodeOverflowFails := by
  rintro s need rfl hv hover
  rw [exec_encode_of_valid hv, encodeFrame_of_overflow hover, raise_eq_failedState s _ _ (by decide)]
  rfl

/-- Settles O40: what no command changes, what only DECODE or a filter changes, and the bytes of OUT that ENCODE
leaves. (`encodeFrame` itself is a definition of the model.) -/
theorem encodeFrame_frame : Obligations.EncodeFrame := by
  intro s t h
  obtain ⟨-, -, hparams, hrnd, hirq, hovr, hop, hinLen, hpend, hin, hepoch, -⟩ := exec_keeps h
  obtain ⟨hhdr, hwidth, hheight, hpadding⟩ := exec_keeps_registers h (by simp)
  have hvalid : t.valid = s.valid := by
    by_contra hne
    cases (exec_changes_valid h hne).1
  have hpix : t.pix = s.pix := by
    by_contra hne
    exact (exec_changes_pix h hne).1 rfl
  exact ⟨hparams, hrnd, hirq, hvalid, hovr, hop, hinLen, hwidth, hheight, hpadding, hhdr, hpix, hpend,
    inByte_congr hparams hepoch hin, fun a hkept => (outByte_exec_encode h a).trans (if_neg hkept)⟩

/-! ### The round trip (40_codec.md R113) -/

/-- A DECODE that ends with VALID = 1 is the commit. -/
theorem eq_commitFrame_of_decode_valid {s t : State} (h : exec .decode s = .next t) (hv : t.valid = true) :
    t = (commitFrame s).complete := by
  cases hs : decodeError s with
  | none =>
    rw [exec_decode_of_passed hs] at h
    cases h
    rfl
  | some failure =>
    rw [exec_decode_of_failed hs] at h
    cases h
    cases hv

/-- The frame that DECODE commits is the input but for the padding of each row, which is zero. -/
theorem frameByte_commitFrame (s : State) {a : Nat} (ha : a < 54 + s.inH * stride s.inW) :
    (commitFrame s).frameByte a =
      if 54 ≤ a ∧ 3 * s.inW ≤ (a - 54) % stride s.inW then 0#8 else s.decodeByte a := by
  rcases Nat.lt_or_ge a 54 with hheader | hrows
  · rw [frameByte_header _ hheader, commitFrame_hdrByte s hheader, if_neg (by omega)]
  · obtain ⟨r, j, hr, hj, rfl⟩ := exists_row_byte hrows ha
    rw [(holdsFrame_commitFrame s).frameByte_of_row r hj, row_byte_mod r hj]
    rcases Nat.lt_or_ge j (3 * s.inW) with hpixel | hpad
    · rw [if_pos hpixel, if_neg (by omega), commitFrame_pixel s hr (by omega), pixelByte_inputPixel s r _ (by omega),
        Nat.add_assoc _ (3 * (j / 3)), Nat.div_add_mod]
    · rw [if_neg (by omega), if_pos ⟨hrows, hpad⟩]

/-- Settles O56: ENCODE writes the committed frame, which is the input with zero padding. -/
theorem decodeEncodeRoundTrip : Obligations.DecodeEncodeRoundTrip := by
  rintro s t W hdecode hvalid rfl hfits
  obtain rfl := eq_commitFrame_of_decode_valid hdecode hvalid
  have hW : (commitFrame s).complete.width.toNat = s.inW := commitFrame_width s
  have hH : (commitFrame s).complete.height.toNat = s.inH := commitFrame_height s
  have hneed : (commitFrame s).complete.frameBytes = 54 + s.inH * stride s.inW :=
    (holdsFrame_commitFrame s).frameBytes_eq
  have hbytes : ∀ a, a < 54 + s.inH * stride s.inW → (storeFrame (commitFrame s).complete).complete.outByte a =
      if 54 ≤ a ∧ 3 * s.inW ≤ (a - 54) % stride s.inW then 0#8 else s.decodeByte a := fun a ha =>
    (outByte_storeFrame _ hfits a).trans ((if_pos (hneed ▸ ha)).trans (frameByte_commitFrame s ha))
  refine ⟨_, exec_encode_of_fits hvalid hfits, rfl, ?_⟩
  rw [hW, hH, hneed]
  refine ⟨?_, hbytes, fun hsame a h54 ha hpad => ?_, fun hzero a ha => ?_⟩
  · rintro (hempty | hempty) <;> simp [hempty, stride, pad]
  · rw [← hsame a ha, hbytes a ha, if_pos ⟨h54, hpad⟩]
  · rw [hbytes a ha]
    split
    · rename_i hpad
      exact (hzero a hpad.1 ha hpad.2).symm
    · rfl

end Sys2Proof.Machine
end

section
/-! PROOFS. 41_grayscale.md: what GRAYSCALE does to the frame, its second application, and where saturation can act. -/

namespace Sys2Proof.Machine

open Sys2Proof.Claims

/-! ### A filter that completes (10_state.md R43, 60_exceptions.md R150) -/

theorem replacePixels_complete_eq_doneState (s : State) (f : Nat → Nat → Pixel) :
    (s.replacePixels f).complete = doneState { s with pix := (s.replacePixels f).complete.pix } := rfl

theorem replacePixels_complete_pix_length (s : State) (f : Nat → Nat → Pixel) :
    (s.replacePixels f).complete.pix.length = s.height.toNat * s.width.toNat :=
  pixelGrid_length _ _ f

theorem pixel_replacePixels_complete (s : State) (f : Nat → Nat → Pixel) {r c : Nat} (hr : r < s.height.toNat)
    (hc : c < s.width.toNat) : (s.replacePixels f).complete.pixel r c = f r c :=
  (pixel_congr rfl rfl r c).trans (pixel_replacePixels s f hr hc)

/-- Replacing each pixel of a complete frame by itself leaves PIX. -/
theorem replacePixels_complete_pix_of_fixed {s : State} {f : Nat → Nat → Pixel}
    (hlen : s.pix.length = s.height.toNat * s.width.toNat)
    (hfixed : ∀ r c, r < s.height.toNat → c < s.width.toNat → f r c = s.pixel r c) :
    (s.replacePixels f).complete.pix = s.pix :=
  (pixelGrid_congr hfixed).trans (pixelGrid_pixel s hlen)

/-! ### GRAYSCALE (41_grayscale.md R116, R119) -/

theorem exec_grayscale_of_valid {s : State} (h : s.valid = true) :
    exec .grayscale s = .next (s.replacePixels fun r c => grayPixel s.pend.rnd (s.pixel r c)).complete := by
  rw [exec, execGrayscale, withFrame_of_valid _ _ h]

/-- Settles O34: each new pixel is the `grayPixel` of the old one. -/
theorem grayscaleAveragesChannels : Obligations.GrayscaleAveragesChannels := by
  intro s hv
  refine ⟨_, exec_grayscale_of_valid hv, replacePixels_complete_eq_doneState s _,
    replacePixels_complete_pix_length s _, ?_⟩
  rintro r c p a hr hc rfl rfl
  exact pixel_replacePixels_complete s _ hr hc

/-- The rounded mean of three equal channels is their value. -/
theorem channel_of_equal_channels (v : Byte) (mode : RoundMode) :
    channel (v.toNat + v.toNat + v.toNat) 3 mode = v := by
  have hsum : v.toNat + v.toNat + v.toNat = 3 * v.toNat := by omega
  have hv : v.toNat ≤ 255 := Nat.le_of_lt_succ v.isLt
  apply BitVec.eq_of_toNat_eq
  rw [channel_toNat, hsum, roundDiv_mul _ _ _ (by decide), Nat.min_eq_left hv]

/-- A gray pixel is a fixed point in every mode. -/
theorem grayPixel_of_gray (mode : RoundMode) (v : Byte) :
    grayPixel mode { b := v, g := v, r := v } = { b := v, g := v, r := v } := by
  simp only [grayPixel, channel_of_equal_channels]

/-- A complete frame is held, and every pixel of it is gray. -/
structure GrayFrame (s : State) : Prop where
  valid : s.valid = true
  full : s.pix.length = s.height.toNat * s.width.toNat
  gray : ∀ r c, r < s.height.toNat → c < s.width.toNat → ∃ v, s.pixel r c = { b := v, g := v, r := v }

theorem exec_grayscale_makes_gray {s : State} (hv : s.valid = true) :
    ∃ t, exec .grayscale s = .next t ∧ GrayFrame t :=
  ⟨_, exec_grayscale_of_valid hv, hv, replacePixels_complete_pix_length s _,
    fun _ _ hr hc => ⟨_, pixel_replacePixels_complete s _ hr hc⟩⟩

theorem exec_grayscale_keeps_gray {s : State} (h : GrayFrame s) :
    ∃ t, exec .grayscale s = .next t ∧ t.pix = s.pix := by
  refine ⟨_, exec_grayscale_of_valid h.valid, replacePixels_complete_pix_of_fixed h.full fun r c hr hc => ?_⟩
  obtain ⟨v, hv⟩ := h.gray r c hr hc
  rw [hv, grayPixel_of_gray]

/-- Settles O53: the first GRAYSCALE leaves a gray frame, which the second keeps in its own mode. -/
theorem grayscaleIdempotent : Obligations.GrayscaleIdempotent := by
  intro s mode hv
  obtain ⟨t, hfirst, hgray⟩ := exec_grayscale_makes_gray hv
  obtain ⟨u, hsecond, hpix⟩ :=
    exec_grayscale_keeps_gray (s := { t with pend := { t.pend with rnd := mode } }) { hgray with }
  exact ⟨t, u, hfirst, hsecond, hpix⟩

/-! ### Saturation (41_grayscale.md R117, 43_blur.md R131, 44_sepia.md R141) -/

/-- The weights of sepia's blue add up to 937 thousandths. -/
theorem sepia_blue_sum_le (b g x : Byte) : 272 * x.toNat + 534 * g.toNat + 131 * b.toNat ≤ 937 * 255 := by
  have hb := b.isLt
  have hg := g.isLt
  have hx := x.isLt
  omega

/-- TRUNC keeps the whole thousands of at most 238935; the other modes may round up to the next one. -/
theorem sepia_blue_le (b g x : Byte) (mode : RoundMode) :
    roundDiv (272 * x.toNat + 534 * g.toNat + 131 * b.toNat) 1000 mode ≤ if mode = .trunc then 238 else 239 := by
  have hsum := sepia_blue_sum_le b g x
  split_ifs with hmode
  · rw [hmode, roundDiv_trunc]
    omega
  · exact roundDiv_le mode (by decide) (by omega)

/-- HALF_UP reaches 256 from 255.5 on. -/
theorem roundDiv_halfUp_saturates_iff (N : Nat) : 255 < roundDiv N 1000 .halfUp ↔ 255500 ≤ N := by
  rw [roundDiv_halfUp N (by decide)]
  split_ifs <;> omega

/-- Settles O50: a quotient of at most 255 is not rounded above it, and the weights bound sepia's blue. -/
theorem saturationBounds : Obligations.SaturationBounds :=
  ⟨fun _ _ mode hn h => roundDiv_le mode hn h, sepia_blue_le, roundDiv_halfUp_saturates_iff⟩

end Sys2Proof.Machine
end

section
/-! PROOFS. 42_reflect.md R122, R125: what REFLECT does to the frame, and its second application. -/

namespace Sys2Proof.Machine

/-- Settles O35: the pixel at (r, c) is replaced by the one at the mirrored column. -/
theorem reflectMirrorsRows : Obligations.ReflectMirrorsRows := fun s hv =>
  ⟨_, exec_reflect_of_valid hv, replacePixels_complete_eq_doneState s _, replacePixels_complete_pix_length s _,
    fun _ _ hr hc => pixel_replacePixels_complete s _ hr hc⟩

/-- A REFLECT of the mirrored frame reads each pixel where the frame before had it: the mirrored column of the mirrored
column is the column itself (42_reflect.md R125). -/
theorem mirrored_pixel_of_reflected (s : State) {r c : Nat} (hr : r < s.height.toNat) (hc : c < s.width.toNat) :
    (s.replacePixels fun r c => s.pixel r (s.width.toNat - 1 - c)).complete.pixel r (s.width.toNat - 1 - c) =
      s.pixel r c := by
  have hmirror : s.width.toNat - 1 - c < s.width.toNat := by omega
  have htwice : s.width.toNat - 1 - (s.width.toNat - 1 - c) = c := Nat.sub_sub_self (Nat.le_sub_one_of_lt hc)
  rw [pixel_replacePixels_complete s _ hr hmirror, htwice]

/-- Settles O54: the second REFLECT puts every pixel back, and by the invariant PIX lists the cells of the frame
exactly. -/
theorem reflectInvolution : Obligations.ReflectInvolution := fun s hs hv =>
  ⟨_, _, exec_reflect_of_valid hv, exec_reflect_of_valid hv,
    (pixelGrid_congr fun _ _ hr hc => mirrored_pixel_of_reflected s hr hc).trans
      (pixelGrid_pixel s (hs.frame hv).cells)⟩

end Sys2Proof.Machine
end

section
/-! PROOFS. 43_blur.md: the windows of BLUR and their divisors, the rounded mean, and the uniform frame. -/

namespace Sys2Proof.Machine

/-! ### How many indexes a window has in one dimension (43_blur.md R128, R130) -/

theorem windowCount_mem_one_two_three {n i : Nat} (h : i < n) :
    windowCount n i = 1 ∨ windowCount n i = 2 ∨ windowCount n i = 3 := by
  obtain ⟨-, -, -, hpos, hle⟩ := window_bounds h
  omega

theorem windowCount_of_single {i : Nat} (h : i < 1) : windowCount 1 i = 1 := by
  rw [windowCount, windowHigh, windowLow]
  omega

theorem windowCount_of_end {n i : Nat} (hn : 2 ≤ n) (h : i = 0 ∨ i = n - 1) : windowCount n i = 2 := by
  rw [windowCount, windowHigh, windowLow]
  omega

theorem windowCount_of_inner {n i : Nat} (hlow : 0 < i) (hhigh : i < n - 1) : windowCount n i = 3 := by
  rw [windowCount, windowHigh, windowLow]
  omega

/-- In a dimension of at least two pixels the window is cut exactly at the two ends. -/
theorem windowCount_of_two_le {n i : Nat} (hn : 2 ≤ n) (h : i < n) :
    windowCount n i = if i = 0 ∨ i = n - 1 then 2 else 3 := by
  split_ifs with hend
  · exact windowCount_of_end hn hend
  · exact windowCount_of_inner (by omega) (by omega)

/-! ### The divisor, a product of two counts (43_blur.md R130) -/

theorem windowSize_mem_divisors {h w r c : Nat} (hr : r < h) (hc : c < w) :
    windowSize h w r c = 1 ∨ windowSize h w r c = 2 ∨ windowSize h w r c = 3 ∨ windowSize h w r c = 4 ∨
      windowSize h w r c = 6 ∨ windowSize h w r c = 9 := by
  rw [windowSize]
  rcases windowCount_mem_one_two_three hr with hrows | hrows | hrows <;>
    rcases windowCount_mem_one_two_three hc with hcols | hcols | hcols <;>
    simp [hrows, hcols]

theorem windowSize_pos {h w r c : Nat} (hr : r < h) (hc : c < w) : 0 < windowSize h w r c := by
  have hdivisor := windowSize_mem_divisors hr hc
  omega

theorem windowSize_of_one_row {w r c : Nat} (hr : r < 1) : windowSize 1 w r c = windowCount w c := by
  rw [windowSize, windowCount_of_single hr, Nat.one_mul]

theorem windowSize_of_one_column {h r c : Nat} (hc : c < 1) : windowSize h 1 r c = windowCount h r := by
  rw [windowSize, windowCount_of_single hc, Nat.mul_one]

/-- Settles O51: each divisor is the product of the counts of its rows and its columns. -/
theorem blurDivisors : Obligations.BlurDivisors := by
  intro h w r c hr hc
  refine ⟨windowSize_mem_divisors hr hc, ?corner, ?edgeRow, ?edgeColumn, ?interior, ?oneRow, ?oneColumn, ?onePixel⟩
  case corner =>
    intro hh hw hrow hcol
    rw [windowSize, windowCount_of_end hh hrow, windowCount_of_end hw hcol]
  case edgeRow =>
    intro hh _ hrow hlow hhigh
    rw [windowSize, windowCount_of_end hh hrow, windowCount_of_inner hlow hhigh]
  case edgeColumn =>
    intro _ hw hlow hhigh hcol
    rw [windowSize, windowCount_of_inner hlow hhigh, windowCount_of_end hw hcol]
  case interior =>
    intro hrlow hrhigh hclow hchigh
    rw [windowSize, windowCount_of_inner hrlow hrhigh, windowCount_of_inner hclow hchigh]
  case oneRow =>
    rintro rfl hw
    rw [windowSize_of_one_row hr, windowCount_of_two_le hw hc]
  case oneColumn =>
    rintro rfl hh
    rw [windowSize_of_one_column hc, windowCount_of_two_le hh hr]
  case onePixel =>
    rintro rfl rfl
    rw [windowSize_of_one_row hr, windowCount_of_single hc]

/-! ### The sum over a window (43_blur.md R129) -/

theorem windowHigh_succ_sub_windowLow {n i : Nat} (h : i < n) :
    windowHigh n i + 1 - windowLow i = windowCount n i := by
  obtain ⟨hlow, hhigh, -⟩ := window_bounds h
  exact Nat.sub_add_comm (hlow.trans hhigh)

/-- The window's indexes are the interval from its first to its last. -/
theorem sum_map_windowIndexes {n i : Nat} (h : i < n) (f : Nat → Nat) :
    ((windowIndexes n i).map f).sum = ∑ j ∈ Finset.Icc (windowLow i) (windowHigh n i), f j := by
  rw [windowIndexes, ← windowHigh_succ_sub_windowLow h]
  rfl

theorem windowSum_eq_sum_Icc {h w r c : Nat} (hr : r < h) (hc : c < w) (f : Nat → Nat → Nat) :
    windowSum h w f r c = ∑ i ∈ Finset.Icc (windowLow r) (windowHigh h r),
      ∑ j ∈ Finset.Icc (windowLow c) (windowHigh w c), f i j := by
  simp only [windowSum, sum_map_windowIndexes hr, sum_map_windowIndexes hc]

theorem card_window {n i : Nat} (h : i < n) :
    (Finset.Icc (windowLow i) (windowHigh n i)).card = windowCount n i := by
  rw [Nat.card_Icc, windowHigh_succ_sub_windowLow h]

/-- Every index of a window lies in the frame. -/
theorem lt_of_mem_window {n i j : Nat} (h : i < n) (hj : j ∈ Finset.Icc (windowLow i) (windowHigh n i)) : j < n := by
  obtain ⟨-, -, hinside, -⟩ := window_bounds h
  exact (Finset.mem_Icc.mp hj).2.trans_lt hinside

/-- The sum of a constant channel is its value once per pixel of the window. -/
theorem windowSum_of_uniform {h w r c v : Nat} (hr : r < h) (hc : c < w) {f : Nat → Nat → Nat}
    (huniform : ∀ i j, i < h → j < w → f i j = v) : windowSum h w f r c = windowSize h w r c * v := by
  calc windowSum h w f r c
      = ∑ i ∈ Finset.Icc (windowLow r) (windowHigh h r), ∑ j ∈ Finset.Icc (windowLow c) (windowHigh w c), f i j :=
        windowSum_eq_sum_Icc hr hc f
    _ = ∑ i ∈ Finset.Icc (windowLow r) (windowHigh h r), ∑ j ∈ Finset.Icc (windowLow c) (windowHigh w c), v :=
        Finset.sum_congr rfl fun i hi => Finset.sum_congr rfl fun j hj =>
          huniform i j (lt_of_mem_window hr hi) (lt_of_mem_window hc hj)
    _ = windowSize h w r c * v := by
        simp only [Finset.sum_const, card_window hr, card_window hc, smul_eq_mul, windowSize, Nat.mul_assoc]

/-! ### BLUR with a frame held (43_blur.md R129) -/

theorem exec_blur_of_valid {s : State} (h : s.valid = true) :
    exec .blur s =
      .next (s.replacePixels (blurPixel s.pend.rnd s.height.toNat s.width.toNat s.pixel)).complete := by
  rw [exec, execBlur, withFrame_of_valid _ _ h]

/-- Settles O36: the new pixel is the `blurPixel` of the former frame, whose window is the clipped one. -/
theorem blurAveragesClippedWindow : Obligations.BlurAveragesClippedWindow := by
  intro s hv
  refine ⟨_, exec_blur_of_valid hv, replacePixels_complete_eq_doneState s _,
    replacePixels_complete_pix_length s _, ?_⟩
  rintro r c r0 r1 c0 c1 n mean hr hc hr0 rfl hc0 rfl rfl hmean
  obtain rfl : r0 = windowLow r := by rw [hr0, windowLow]; omega
  obtain rfl : c0 = windowLow c := by rw [hc0, windowLow]; omega
  have hchannel : ∀ k, mean k = channel
      (windowSum s.height.toNat s.width.toNat (fun i j => (k (s.pixel i j)).toNat) r c)
      (windowSize s.height.toNat s.width.toNat r c) s.pend.rnd := fun k => by
    rw [hmean k, windowSum_eq_sum_Icc hr hc]
    rfl
  rw [pixel_replacePixels_complete s _ hr hc, hchannel, hchannel, hchannel]
  rfl

/-! ### The uniform frame (43_blur.md R135) -/

/-- The rounded mean of n equal channels is their value, in every mode. -/
theorem channel_of_equal_summands (v : Byte) {n : Nat} (hn : 0 < n) (mode : RoundMode) :
    channel (n * v.toNat) n mode = v := by
  have hv : v.toNat ≤ 255 := Nat.le_of_lt_succ v.isLt
  apply BitVec.eq_of_toNat_eq
  rw [channel_toNat, roundDiv_mul _ _ _ hn, Nat.min_eq_left hv]

theorem blurPixel_of_uniform (mode : RoundMode) {h w r c : Nat} {snapshot : Nat → Nat → Pixel} {p : Pixel}
    (hr : r < h) (hc : c < w) (huniform : ∀ i j, i < h → j < w → snapshot i j = p) :
    blurPixel mode h w snapshot r c = p := by
  have hchannel : ∀ k : Pixel → Byte,
      channel (windowSum h w (fun i j => (k (snapshot i j)).toNat) r c) (windowSize h w r c) mode = k p := fun k => by
    rw [windowSum_of_uniform (v := (k p).toNat) hr hc fun i j hi hj => by rw [huniform i j hi hj],
      channel_of_equal_summands _ (windowSize_pos hr hc)]
  rw [blurPixel, hchannel Pixel.b, hchannel Pixel.g, hchannel Pixel.r]

/-- Settles O55: every window of a uniform frame holds the one pixel, whose mean is itself. -/
theorem blurKeepsUniformFrame : Obligations.BlurKeepsUniformFrame := fun s _ hv huniform =>
  ⟨_, exec_blur_of_valid hv, fun _ _ hr hc =>
    (pixel_replacePixels_complete s _ hr hc).trans (blurPixel_of_uniform s.pend.rnd hr hc huniform)⟩

end Sys2Proof.Machine
end

section
/-! PROOFS. 44_sepia.md R138 to R140: what SEPIA does to the frame. -/

namespace Sys2Proof.Machine

theorem exec_sepia_of_valid {s : State} (h : s.valid = true) :
    exec .sepia s = .next (s.replacePixels fun r c => sepiaPixel s.pend.rnd (s.pixel r c)).complete := by
  rw [exec, execSepia, withFrame_of_valid _ _ h]

/-- Settles O37: each new pixel is the `sepiaPixel` of the old one, whose channels are the three rows of the matrix. -/
theorem sepiaMixesChannels : Obligations.SepiaMixesChannels := by
  intro s hv
  refine ⟨_, exec_sepia_of_valid hv, replacePixels_complete_eq_doneState s _,
    replacePixels_complete_pix_length s _, ?_⟩
  rintro r c b g x hr hc rfl rfl rfl
  rw [pixel_replacePixels_complete s _ hr hc]
  exact ⟨rfl, rfl, rfl⟩

end Sys2Proof.Machine
end

section
/-! PROOFS. 60_exceptions.md R148 to R154: the report of a completed command, and the interrupt level. -/

namespace Sys2Proof.Machine

/-! ### The report of a completed command (60_exceptions.md R150, R151) -/

/-- How a completion from `s` reports in `t`: a success adds DONE, a failure adds ERROR with a code, and the other flags
stay as they are (60_exceptions.md R150, R151). -/
def Reports (s t : State) : Prop :=
  (t.done = true ∧ t.error = s.error ∧ t.errCode = s.errCode) ∨
    (t.done = s.done ∧ t.error = true ∧ t.errCode ≠ .none)

theorem raise_reports (s : State) (cmd : Option Instr) {e : ErrCode} (he : e ≠ .none) (info : Nat) :
    Reports s (s.raise cmd e info) := .inr ⟨rfl, rfl, he⟩

theorem encodeFrame_reports (s : State) : Reports s (encodeFrame s) := by
  rcases Nat.lt_or_ge s.params.outCap s.frameBytes with hover | hfits
  · rw [encodeFrame_of_overflow hover]
    exact raise_reports s _ (by decide) _
  · rw [encodeFrame_of_fits hfits]
    exact .inl ⟨rfl, rfl, rfl⟩

theorem exec_reports {i : Instr} {s t : State} (h : exec i s = .next t) : Reports s t := by
  rcases exec_cases h with ⟨-, -, rfl⟩ | ⟨-, e, info, hfails, rfl⟩ | ⟨-, -, rfl⟩ | ⟨-, -, rfl⟩ | ⟨-, -, -, f, rfl⟩
  · exact .inl ⟨rfl, rfl, rfl⟩
  · exact raise_reports s _ (decodeError_code_ne_none hfails) _
  · exact raise_reports s _ (by decide) _
  · exact encodeFrame_reports s
  · exact .inl ⟨rfl, rfl, rfl⟩

theorem engineTurn_reports {s t : State} (hb : s.busy = true) (h : engineTurn s = .next t) : Reports s t := by
  rcases engineTurn_cases h with ⟨hidle, -⟩ | ⟨-, i, -, hexec⟩ | ⟨-, why, -, rfl⟩
  · exact absurd hidle (by simp [hb])
  · exact exec_reports hexec
  · exact raise_reports s _ (by decide) _

/-- With BUSY = 1 the engine's step completes the command: it reports, and IRQ_EN stays. -/
theorem step_completes {s u : State} (hmoves : engineMoves s u) (hb : s.busy = true) :
    ∃ t, step s = .next t ∧ t.busy = false ∧ t.irqEn = s.irqEn ∧ Reports s t := by
  obtain ⟨t, ht⟩ := engineTurn_answers_next u
  have hstep : step s = .next t := (step_of_engineMoves hmoves).trans ht
  obtain ⟨rest, rfl⟩ := engineMoves_eq hmoves
  obtain ⟨hidle, -, -, hirq, -⟩ := engineTurn_keeps ht
  exact ⟨t, hstep, hidle, hirq, engineTurn_reports (s := { s with schedule := rest }) hb ht⟩

/-- Settles O9: a running command has no report yet, so the one that its completion adds stands alone. -/
theorem completionReportsExactlyOne : Obligations.CompletionReportsExactlyOne := by
  intro s u hmoves hb hcoherent
  obtain ⟨hdone, herror, hcode⟩ := hcoherent.runningHasNoReport hb
  obtain ⟨t, hstep, hidle, -, hreport⟩ := step_completes hmoves hb
  refine ⟨t, hstep, hidle, ?_⟩
  rcases hreport with ⟨hdone', herror', hcode'⟩ | ⟨hdone', herror', hcode'⟩
  · simp [hdone', herror'.trans herror, hcode'.trans hcode]
  · simp [hdone'.trans hdone, herror', hcode']

/-! ### The interrupt level (60_exceptions.md R154) -/

theorem irq_eq_true_iff (s : State) : s.irq = true ↔ s.irqEn = true ∧ (s.done = true ∨ s.error = true) := by
  simp [State.irq]

theorem irq_of_noReport {s : State} (hdone : s.done = false) (herror : s.error = false) : s.irq = false := by
  simp [State.irq, hdone, herror]

theorem Reports.done_or_error {s t : State} (h : Reports s t) : t.done = true ∨ t.error = true := by
  rcases h with ⟨hdone, -, -⟩ | ⟨-, herror, -⟩
  · exact .inl hdone
  · exact .inr herror

theorem irq_writeCtrl_of_report {s : State} {v : Word} (hv : v.getLsbD 31 = false)
    (h : s.done = true ∨ s.error = true) : (s.writeCtrl v).irq = v.getLsbD 2 := by
  rw [writeCtrl_of_noReset s hv, Bool.eq_iff_iff, irq_eq_true_iff]
  exact and_iff_left h

/-- Settles O21: the level rises with the report of a completion while IRQ_EN = 1, and with IRQ_EN while a report
stands. -/
theorem interruptLevel : Obligations.InterruptLevel := by
  refine ⟨irq_eq_true_iff, fun s u hmoves hb henabled => ⟨fun hcoherent => ?_, ?_⟩, fun s v rest hplan hv hreport => ?_⟩
  · obtain ⟨hdone, herror, -⟩ := hcoherent.runningHasNoReport hb
    exact irq_of_noReport hdone herror
  · obtain ⟨t, hstep, -, hirq, hreport⟩ := step_completes hmoves hb
    exact ⟨t, hstep, (irq_eq_true_iff t).mpr ⟨hirq.trans henabled, hreport.done_or_error⟩⟩
  · exact ⟨_, step_of_host hplan, irq_writeCtrl_of_report (s := { s with schedule := rest }) hv hreport⟩

end Sys2Proof.Machine
end
